-- ==== Sys2Proof/Word.lean ====
section
/-! DEFINITION. The two machine words of the Coil View codec: a register and a buffer byte (00_scope.md R6). -/

namespace Sys2Proof

/-- One register of the Register Bank: `REG_W = 16` bits, unsigned (R6, R20). -/
abbrev Word := BitVec 16

/-- One byte of a Packed Bit Buffer or of the working buffer: `BYTE_W = 8` bits (R6). -/
abbrev Byte := BitVec 8

end Sys2Proof
end

