-- ==== Sys2Proof/Syntax.lean ====
section
/-! DEFINITION. The instructions: the command record of 30_encoding.md R71, one constructor per row of
spec/opcode_table.json (R79). -/

namespace Sys2Proof

/-- One command of the block. `start` and `count` are natural numbers (R9, R78): nothing in the block adds, shifts or
masks them as words, and address arithmetic is exact. -/
inductive Instr where
  /-- `READ_BITS start, count` (R100). A data operand presented beside it is ignored (R71, R81), so it has none here. -/
  | readBits (start count : Nat)
  /-- `WRITE_BITS start, count, [data]` (R130): `data` is a byte sequence with its own length (R81). -/
  | writeBits (start count : Nat) (data : List Byte)
  deriving DecidableEq, Repr

/-- The bit address of the first coil of a request (R71). -/
def Instr.start : Instr → Nat
  | .readBits start _ => start
  | .writeBits start _ _ => start

/-- The number of coils of a request (R71). -/
def Instr.count : Instr → Nat
  | .readBits _ count => count
  | .writeBits _ count _ => count

end Sys2Proof
end

