-- ==== Sys2Proof/WellFormed.lean ====
section
/-! DEFINITION. Which instructions a command word of operand width `AW` can carry (30_encoding.md R71, R77, R80). -/

namespace Sys2Proof

/-- Both operands fit their fields: `0 <= start < 2^AW` and `0 <= count < 2^AW` (R71). Nothing more: a zero count, a
wrong `data` length and an out-of-range request are decided by value when the operation runs (R80). -/
def Instr.wellFormed (aw : Nat) : Instr → Bool
  | .readBits start count => decide (start < 2 ^ aw) && decide (count < 2 ^ aw)
  | .writeBits start count _ => decide (start < 2 ^ aw) && decide (count < 2 ^ aw)

end Sys2Proof
end

