-- ==== Sys2Proof/Decode.lean ====
section
/-! DEFINITION. The command word: decoder, encoder, and the two table readings the host asks for
(30_encoding.md R77 to R81, R85). -/

namespace Sys2Proof

/-- Why a number presented as a command word is not one. -/
inductive DecodeError where
  /-- The number does not fit the `2*AW + 1` bits of format `CMD` (R77). -/
  | widerThanCmd
  deriving DecidableEq, Repr

/-- The number of bits of a command word (R77). -/
def cmdWidth (aw : Nat) : Nat := 2 * aw + 1

/-- The top bit `[2*AW]` of the word (R77). -/
def opField (aw w : Nat) : Nat := w / 2 ^ (2 * aw)

/-- Bits `[2*AW-1 : AW]` of the word (R77). -/
def startField (aw w : Nat) : Nat := w / 2 ^ aw % 2 ^ aw

/-- Bits `[AW-1 : 0]` of the word (R77). -/
def countField (aw w : Nat) : Nat := w % 2 ^ aw

/-- Decode a command: the word `w` and the data operand delivered beside it (R77, R79, R81, R85). Total: every number of
`2*AW + 1` bits is exactly one command (R80), a wider number is rejected by name. -/
def decode (aw w : Nat) (data : List Byte) : Except DecodeError Instr :=
  if w < 2 ^ cmdWidth aw then
    if opField aw w = 0 then .ok (.readBits (startField aw w) (countField aw w))
    else .ok (.writeBits (startField aw w) (countField aw w) data)
  else .error .widerThanCmd

/-- The command word of an instruction: `op * 2^(2*AW) + start * 2^AW + count` (R85). -/
def encodeWord (aw : Nat) : Instr → Nat
  | .readBits start count => 0 * 2 ^ (2 * aw) + start * 2 ^ aw + count
  | .writeBits start count _ => 1 * 2 ^ (2 * aw) + start * 2 ^ aw + count

/-- The data operand that travels beside the word (R77, R81). -/
def encodeData : Instr → List Byte
  | .readBits _ _ => []
  | .writeBits _ _ data => data

/-- An instruction as it is presented on the command interface: its word and its data operand (R77, R85). -/
def encode (aw : Nat) (i : Instr) : Nat × List Byte := (encodeWord aw i, encodeData i)

/-- The operand width for which spec/opcode_table.json shows its rows (30_encoding.md R79). -/
def tableAw : Nat := 16

/-- The data operand of zeros that goes with a word of the table, which gives the operand no bits: none for a read, and
for a write as many zero bytes as its count requires (R81). DESIGN CHOICE, notes/assumptions/7.md. -/
def tableData (w : Nat) : List Byte :=
  if opField tableAw w = 0 then [] else List.replicate ((countField tableAw w + 7) / 8) 0

/-- The instruction the decoder reads from a word numbered as spec/opcode_table.json numbers it. -/
def decodeTableWord (_nbits w : Nat) : Option Instr :=
  match decode tableAw w (tableData w) with
  | .ok i => some i
  | .error _ => none

end Sys2Proof
end

