-- ==== Sys2Proof/Machine/Operands.lean ====
section
/-! DEFINITION. Operand forms: where a request `(start, count)` lies in the Coil Table, how registers become bytes and
bytes become bits. Every function here is pure. -/

namespace Sys2Proof.Machine

open Sys2Proof

/-! ## The request (40_read_bits.md R102, R103, R106, R109) -/

/-- `firstRegister = start / 16`, the first coil-table entry touched (R102). -/
def firstRegister (start : Nat) : Nat := start / 16

/-- `bitOffsetInFirstRegister = start % 16` (R102). -/
def bitOffset (start : Nat) : Nat := start % 16

/-- `totalRegisters`, the number of entries a request touches; `o` is its bit offset (R103). -/
def totalRegisters (o count : Nat) : Nat := (o + count - 1) / 16 + 1

/-- `byteShift`, the sub-byte part of the bit offset (R106). -/
def byteShift (o : Nat) : Nat := o % 8

/-- `byteOffset`, the whole-byte part of the bit offset (R106). -/
def byteOffset (o : Nat) : Nat := o / 8

/-- `((count - 1) / 8) + 1`, the length of a Packed Bit Buffer of `count >= 1` coils (R81, R109). Never evaluated at
`count = 0` (90_conflicts.md C2). -/
def packedLength (count : Nat) : Nat := (count - 1) / 8 + 1

/-- The Register Bank indices `CT[fr], ..., CT[fr + T - 1]` of the entries a request touches, in ascending entry order
(R104, R105, R133). For an in-range request there are exactly `T` of them. -/
def span (ct : List Nat) (start count : Nat) : List Nat :=
  (ct.drop (firstRegister start)).take (totalRegisters (bitOffset start) count)

/-! ## Address translation (20_memory.md R43, R44, R45) -/

/-- The Register Bank index behind a bit address, `CT[b / 16]`; none for an invalid bit address (R43, R44, R45). -/
def coilRegister (ct : List Nat) (b : Nat) : Option Nat := ct[b / 16]?

/-- `coil(b)`: bit `b % 16` of `x[CT[b / 16]]` (R11, R44). None where the bit address is invalid or the register does
not exist. -/
def coil (ct : List Nat) (bank : List Word) (b : Nat) : Option Bool :=
  match coilRegister ct b with
  | some i => (bank[i]?).map fun v => v.getLsbD (b % 16)
  | none => none

/-! ## Byte and bit order (R47, R48) -/

/-- Bits 7..0 of a register (R47). -/
def lowByte (v : Word) : Byte := v.extractLsb' 0 8

/-- Bits 15..8 of a register (R47). -/
def highByte (v : Word) : Byte := v.extractLsb' 8 8

/-- Bit `k` of a byte sequence: bit `k % 8` of byte `k / 8` (R10, R48). Beyond the sequence it is false; no operation
looks there. -/
def bufferBit (b : List Byte) (k : Nat) : Bool := (b.getD (k / 8) 0).getLsbD (k % 8)

/-- A byte sequence read as one little-endian number, `sum of b[i] * 256^i` (R111, R137). -/
def littleEndianBytes : List Byte → Nat
  | [] => 0
  | b :: bs => b.toNat + 256 * littleEndianBytes bs

/-- A register sequence read as one little-endian number, `sum of v[j] * 65536^j` (R111, R137). -/
def littleEndianWords : List Word → Nat
  | [] => 0
  | v :: vs => v.toNat + 65536 * littleEndianWords vs

/-! ## The read path's buffers (R105 to R110) -/

/-- The working buffer `W` as allocated: `T * 2` bytes, zero-filled (R105). -/
def workingBuffer (t : Nat) : List Byte := List.replicate (2 * t) 0

/-- `W[2*j] = v % 256`, `W[2*j+1] = v / 256`: the low byte first (R47, R105). -/
def storeRegister (w : List Byte) (j : Nat) (v : Word) : List Byte :=
  (w.set (2 * j) (lowByte v)).set (2 * j + 1) (highByte v)

/-- Copy registers into the working buffer one after another, from the `j`-th place on (R105). -/
def copyRegisters (w : List Byte) (j : Nat) : List Word → List Byte
  | [] => w
  | v :: vs => copyRegisters (storeRegister w j v) (j + 1) vs

/-- One shifted byte, `trunc8((b >> s) | (next << (8 - s)))`; a byte's shift left drops what leaves the byte (R107). -/
def shiftedByte (s : Nat) (b next : Byte) : Byte := (b >>> s) ||| (next <<< (8 - s))

/-- Right-shift a byte sequence by `s` bits, byte by byte. The last byte has no successor to pull high bits from (R107). -/
def shiftBytes (s : Nat) : List Byte → List Byte
  | [] => []
  | [b] => [b >>> s]
  | b :: next :: rest => shiftedByte s b next :: shiftBytes s (next :: rest)

/-- The mask `(1 << (count % 8)) - 1` of the final result byte (R109). -/
def finalMask (count : Nat) : Byte := BitVec.ofNat 8 ((1 <<< (count % 8)) - 1)

/-- Mask the final result byte `S[n - 1]` when `count` is no multiple of 8 (R109). -/
def maskFinal (count : Nat) (s : List Byte) : List Byte :=
  if count % 8 = 0 then s else s.modify (packedLength count - 1) (· &&& finalMask count)

/-- The Packed Bit Buffer of a request at bit offset `o` in the registers `vs` of its span: fill the working buffer,
skip `byteOffset` bytes, shift, compact to index 0, mask, keep `n` bytes (R105 to R110). -/
def extractBits (o count : Nat) (vs : List Word) : List Byte :=
  let w := copyRegisters (workingBuffer (totalRegisters o count)) 0 vs
  let s := shiftBytes (byteShift o) (w.drop (byteOffset o))
  (maskFinal count s).take (packedLength count)

/-! ## The write path's coverage and field (41_write_bits.md R134, R136) -/

/-- `lo`, the first covered position of the `j`-th register of the span (R134). -/
def coverLo (o j : Nat) : Nat := if j = 0 then o else 0

/-- `hi`, one past the last covered position of the `j`-th register of the span (R134). -/
def coverHi (o count j : Nat) : Nat := min 16 (o + count - 16 * j)

/-- The coverage mask `((1 << (hi - lo)) - 1) << lo` (R134). -/
def coverMask (o count j : Nat) : Word :=
  BitVec.ofNat 16 (((1 <<< (coverHi o count j - coverLo o j)) - 1) <<< coverLo o j)

/-- The positions `lo, lo + 1, ..., hi - 1` of the `j`-th register (R134). -/
def coverPositions (o count j : Nat) : List Nat :=
  List.range' (coverLo o j) (coverHi o count j - coverLo o j)

/-- The field `f` of the `j`-th register: at each covered position `p`, bit `16*j + p - o` of `data`; zero elsewhere
(R136). -/
def coverField (data : List Byte) (o count j : Nat) : Word :=
  (coverPositions o count j).foldl
    (fun f p => f ||| (BitVec.ofNat 16 (bufferBit data (16 * j + p - o)).toNat <<< p)) 0

/-- The merged value `(old & ~m) | f` of a partially covered register (R135). -/
def merge (old m f : Word) : Word := (old &&& ~~~m) ||| f

end Sys2Proof.Machine
end

