-- ==== Sys2Proof/Config.lean ====
section
/-! DEFINITION. The implementation parameters of 00_scope.md R7, as plain data that every state carries and no step
changes. The model quantifies over all of them. -/

namespace Sys2Proof

/-- The configuration supplied once at setup (R7, R23, R74, R192). `N` is not a field: it is the length of the Register
Bank, which State holds. -/
structure Config where
  /-- The Coil Table `CT`: entry `r` is the Register Bank index that coil register index `r` names (R23). Entries need
  not be distinct, contiguous or ordered (R24, R26). -/
  ct : List Nat
  /-- `AW`, the width in bits of the `start` and `count` operands of a command word (R7, R77). -/
  aw : Nat
  /-- `HAS_WRITE`, whether the block has `WRITE_BITS` (R7, R143). -/
  hasWrite : Bool
  deriving DecidableEq, Repr

/-- `M`, the number of Coil Table entries (R7). -/
def Config.m (c : Config) : Nat := c.ct.length

/-- The configuration of `State.reset`. DESIGN CHOICE (notes/assumptions/3.md; unsafe): the spec leaves every
parameter to configuration; these are the table of program P1 and the `AW = 16` of 95_test_vectors.md. -/
def Config.reset : Config := { ct := [4, 1, 3], aw := 16, hasWrite := true }

end Sys2Proof
end

