-- ==== Sys2Proof/Machine/State.lean ====
section
/-! DEFINITION. The machine's state, as plain data, and the reasons a step can stop. -/

namespace Sys2Proof.Machine

open Sys2Proof

/-- The outcome of an operation (30_encoding.md R72, 60_exceptions.md R160). There is no fourth status (R82). -/
inductive Status where
  | ok
  | invalidArgument
  | outOfRange
  deriving DecidableEq, Repr

/-- One response record (R72): `buffer` has exactly `length` bytes. -/
structure Response where
  status : Status
  length : Nat
  buffer : List Byte
  deriving DecidableEq, Repr

/-- One event of an access trace (20_memory.md R52): a whole-register get or set of one Register Bank element (R51). -/
inductive Access where
  /-- `Get(i)`. -/
  | get (i : Nat)
  /-- `Set(i, v)`. -/
  | set (i : Nat) (v : Word)
  deriving DecidableEq, Repr

/-- What the environment does next (10_state.md R30, 30_encoding.md R83): it presents a command on the command interface,
or it acts on the Register Bank through the register-oriented path. -/
inductive EnvAction where
  /-- A command word and the data operand beside it (R70, R77, R81). -/
  | command (word : Nat) (data : List Byte)
  /-- `REG_SET i, v` (R83). -/
  | regSet (i : Nat) (v : Word)
  /-- `REG_GET i` (R83). -/
  | regGet (i : Nat)
  deriving DecidableEq, Repr

/-- What happened, in the one total order of operations and environment accesses (20_memory.md R57). -/
inductive Event where
  /-- One command served: the command, the response emitted for it (R75), and the accesses it made (R52). -/
  | served (i : Instr) (response : Response) (trace : List Access)
  /-- The environment set a register (R83). -/
  | regSet (i : Nat) (v : Word)
  /-- The environment got a register and observed its value (R83). -/
  | regGet (i : Nat) (v : Word)
  deriving DecidableEq, Repr

/-- The machine. Between two steps the block is idle and holds nothing of its own (10_state.md R29 to R31), so what
stands here is the storage it works on, its configuration, and the two sides of its interfaces. -/
structure State where
  /-- The parameters and the Coil Table (R7, R23). No step changes them (R25, R194). -/
  cfg : Config
  /-- The Register Bank: element `i` of the list is `x[i]`, and `N` is its length (R20). -/
  bank : List Word
  /-- What the environment has yet to do, first to last (R30). The environment's list, not storage of the block. -/
  pending : List EnvAction
  /-- What happened so far, oldest first: every response emitted, every access made (R33, R57, R75). An observation:
  no step reads it. -/
  log : List Event
  deriving DecidableEq, Repr

/-- Reasons for which the machine stops with a fault. -/
inductive Fault where
  /-- A get or set of a Register Bank element that does not exist, `i >= N` (R73). Raised by `REG_SET` and `REG_GET`; no
  command of an operational block can raise it. Safe: the spec gives such an access no effect. -/
  | noSuchRegister (i : Nat)
  deriving DecidableEq, Repr

/-- Reasons for which the machine has no meaning for what it is asked. -/
inductive Refusal where
  /-- An instruction of the opcode table that the model gives no meaning. Raised by no arm of `exec`. Safe. -/
  | notModelled (mnemonic : String)
  /-- A command presented to a block whose configuration setup rejects (R193, 93_implementation_defined.md U3). Raised
  by both commands. Safe. -/
  | configurationRejected
  /-- `WRITE_BITS` presented to a block without the write path, `HAS_WRITE = false` (R143). Raised by `WRITE_BITS`. Safe. -/
  | writePathAbsent
  /-- A number wider than a command word on the command interface (R77). Raised by `step`. Safe. -/
  | notACommandWord (word : Nat)
  deriving DecidableEq, Repr

/-- The block just constructed around a bank and a configuration, idle: nothing pending, nothing happened
(R32, R190). The bank's contents are an argument, because the spec leaves them open (R32). -/
def State.constructed (cfg : Config) (bank : List Word) : State :=
  { cfg := cfg, bank := bank, pending := [], log := [] }

/-- The machine right after reset: constructed, idle (R32, R190). DESIGN CHOICE (unsafe): the configuration
(notes/assumptions/3.md) and a bank of five zero registers (notes/assumptions/2.md), both of which the spec leaves open. -/
def State.reset : State := State.constructed Config.reset [0, 0, 0, 0, 0]

end Sys2Proof.Machine
end

