-- ==== Sys2Proof/Machine/Flags.lean ====
section
/-! DEFINITION. The status of an operation. The block has no flags (10_state.md R31): the outcome of an operation is the
status of its response, computed here from the command and the table size before any access (60_exceptions.md R165,
R166). -/

namespace Sys2Proof.Machine

open Sys2Proof

/-- The numeric code of a status, in 2 bits (30_encoding.md R82). -/
def Status.code : Status → BitVec 2
  | .ok => 0
  | .invalidArgument => 1
  | .outOfRange => 2

/-- The range check: `start + count > 16 * M`, the sum exact (R45, R161). -/
def exceedsTable (start count m : Nat) : Bool := decide (start + count > 16 * m)

/-- The checks of `READ_BITS` in their order: zero count, then range (R101, R165). `ok` means all passed. -/
def readStatus (m start count : Nat) : Status :=
  if count = 0 then .invalidArgument
  else if exceedsTable start count m then .outOfRange
  else .ok

/-- The checks of `WRITE_BITS` in their order: zero count, then the length of `data`, then range (R132, R165). -/
def writeStatus (m start count : Nat) (data : List Byte) : Status :=
  if count = 0 then .invalidArgument
  else if data.length ≠ packedLength count then .invalidArgument
  else if exceedsTable start count m then .outOfRange
  else .ok

end Sys2Proof.Machine
end

