-- ==== Sys2Proof/Machine/Ops.lean ====
section
/-! DEFINITION. The operations the instructions share: the setup check, the two accessors of the Register Bank provider,
raising an error, completing an operation, and the environment's own accesses. -/

namespace Sys2Proof.Machine

open Sys2Proof

/-! ## Setup (70_reset_and_hazards.md R192, R193) -/

/-- A configuration `(N, M, CT)` is accepted iff `M <= N` and every entry is below `N` (R193). -/
def accepts (n : Nat) (ct : List Nat) : Bool := decide (ct.length ≤ n) && ct.all fun i => decide (i < n)

/-- The block is in its operation phase (R171): its table was accepted for its bank (R193), and its operand width is a
legal one, `AW >= 1` (R7). -/
def State.operational (s : State) : Bool := accepts s.bank.length s.cfg.ct && decide (1 ≤ s.cfg.aw)

/-- Setup: the surrounding system has constructed the bank and supplies the configuration; the block validates it and
is then idle, or refuses it and never operates (R192, R193). -/
def setUp (cfg : Config) (bank : List Word) : Except Refusal State :=
  if (State.constructed cfg bank).operational then .ok (State.constructed cfg bank)
  else .error .configurationRejected

/-! ## The bank interface (30_encoding.md R73, 20_memory.md R51, R52) -/

/-- The bank as one operation sees it: its contents, and the access trace of the operation so far (R52). -/
structure Port where
  bank : List Word
  trace : List Access
  deriving DecidableEq, Repr

/-- `x[i]`: the provider's get. Plain storage: no effect but the event (R22, R11). -/
def Port.get (p : Port) (i : Nat) : Except Fault (Word × Port) :=
  match p.bank[i]? with
  | some v => .ok (v, { p with trace := p.trace ++ [.get i] })
  | none => .error (.noSuchRegister i)

/-- `x[i] <- v`: the provider's set, a whole register (R51, R11). -/
def Port.set (p : Port) (i : Nat) (v : Word) : Except Fault Port :=
  if i < p.bank.length then .ok { bank := p.bank.set i v, trace := p.trace ++ [.set i v] }
  else .error (.noSuchRegister i)

/-- Get the registers of a list of bank indices, each once, in order (R105, R113). -/
def Port.getAll : List Nat → Port → Except Fault (List Word × Port)
  | [], p => .ok ([], p)
  | i :: is, p =>
    match p.get i with
    | .error f => .error f
    | .ok (v, p') =>
      match Port.getAll is p' with
      | .error f => .error f
      | .ok (vs, p'') => .ok (v :: vs, p'')

/-- The bank interface at the start of an operation: nothing accessed yet (R52). -/
def State.port (s : State) : Port := { bank := s.bank, trace := [] }

/-! ## Ending an operation (60_exceptions.md R164, 30_encoding.md R72, R75) -/

/-- The response of an operation that raises: the status, length 0, empty buffer (R72, R164). -/
def Response.error (e : Status) : Response := { status := e, length := 0, buffer := [] }

/-- The response of a successful operation that returns `(buffer, length)` (R72, R110). A write returns `(empty, 0)`
(R142). -/
def Response.success (buffer : List Byte) (length : Nat) : Response :=
  { status := .ok, length := length, buffer := buffer }

/-- Emit the one response of a command (R75): the bank is as the operation left it, the event is recorded. -/
def State.emit (s : State) (i : Instr) (r : Response) (p : Port) : State :=
  { s with bank := p.bank, log := s.log ++ [.served i r p.trace] }

/-- `raise E`: this block's exception entry. The operation ends at once with the error response; the bank is exactly as
before and the trace is empty; nothing is saved, no mode changes, control goes nowhere (R164). The return from it is
nothing at all (R167). -/
def State.raise (s : State) (i : Instr) (e : Status) : State := s.emit i (Response.error e) s.port

/-- End an operation with what its accesses gave: its response and the bank interface after it, or the fault of an
access to a register that does not exist. -/
def State.complete (s : State) (i : Instr) : Except Fault (Response × Port) → Host.Outcome State Fault Refusal
  | .ok (r, p) => .next (s.emit i r p)
  | .error f => .fault f

/-! ## The environment (30_encoding.md R83, 70_reset_and_hazards.md R196) -/

/-- Take the environment's next action (R30). None where it has none: the block waits (R191). -/
def State.fetch (s : State) : Option (EnvAction × State) :=
  match s.pending with
  | [] => none
  | a :: rest => some (a, { s with pending := rest })

/-- `REG_SET i, v`: the environment sets a register through the register-oriented path (R21, R83). -/
def State.regSet (s : State) (i : Nat) (v : Word) : Host.Outcome State Fault Refusal :=
  match s.port.set i v with
  | .ok p => .next { s with bank := p.bank, log := s.log ++ [.regSet i v] }
  | .error f => .fault f

/-- `REG_GET i`: the environment gets a register and observes its value (R21, R83). -/
def State.regGet (s : State) (i : Nat) : Host.Outcome State Fault Refusal :=
  match s.port.get i with
  | .ok (v, p) => .next { s with bank := p.bank, log := s.log ++ [.regGet i v] }
  | .error f => .fault f

end Sys2Proof.Machine
end

