-- ==== Sys2Proof/Machine/ReadPath.lean ====
section
/-! DEFINITION. `READ_BITS`, the read path (40_read_bits.md). -/

namespace Sys2Proof.Machine

open Sys2Proof

/-- Steps 3 to 8 of the read path on an in-range request: get the registers of the span once each in ascending order,
then form the Packed Bit Buffer from them (R105 to R110). All gets precede every output byte (R105). -/
def readBits (ct : List Nat) (start count : Nat) (p : Port) : Except Fault (Response × Port) :=
  match p.getAll (span ct start count) with
  | .error f => .error f
  | .ok (vs, p') => .ok (Response.success (extractBits (bitOffset start) count vs) (packedLength count), p')

/-- `READ_BITS start, count` (R100): the checks come first (R101), and raise before any access (R164). A block whose
configuration setup rejects has no rule to follow (R193). -/
def execReadBits (start count : Nat) (s : State) : Host.Outcome State Fault Refusal :=
  if s.operational then
    match readStatus s.cfg.m start count with
    | .ok => s.complete (.readBits start count) (readBits s.cfg.ct start count s.port)
    | e => .next (s.raise (.readBits start count) e)
  else .refused .configurationRejected

end Sys2Proof.Machine
end

