-- ==== Sys2Proof/Machine/WritePath.lean ====
section
/-! DEFINITION. `WRITE_BITS`, the write path (41_write_bits.md). -/

namespace Sys2Proof.Machine

open Sys2Proof

/-- Handle the `j`-th register of the span, bank element `i`: a fully covered register is set without being read, a
partially covered one is read, merged and set (R135). -/
def writeRegister (data : List Byte) (o count j i : Nat) (p : Port) : Except Fault Port :=
  if coverMask o count j = 0xFFFF then p.set i (coverField data o count j)
  else
    match p.get i with
    | .error f => .error f
    | .ok (old, p') => p'.set i (merge old (coverMask o count j) (coverField data o count j))

/-- Handle the registers of the span one at a time in ascending order, from the `j`-th on (R135). -/
def writeRegisters (data : List Byte) (o count : Nat) : Nat → List Nat → Port → Except Fault Port
  | _, [], p => .ok p
  | j, i :: is, p =>
    match writeRegister data o count j i p with
    | .error f => .error f
    | .ok p' => writeRegisters data o count (j + 1) is p'

/-- The write path on an in-range request (R133 to R136), and its response (R142). -/
def writeBits (ct : List Nat) (start count : Nat) (data : List Byte) (p : Port) : Except Fault (Response × Port) :=
  match writeRegisters data (bitOffset start) count 0 (span ct start count) p with
  | .error f => .error f
  | .ok p' => .ok (Response.success [] 0, p')

/-- `WRITE_BITS start, count, [data]` (R130): the checks come first (R132), and raise before any access (R164). A block
without the write path refuses it by name (R143); a block whose configuration setup rejects has no rule to follow
(R193). -/
def execWriteBits (start count : Nat) (data : List Byte) (s : State) : Host.Outcome State Fault Refusal :=
  if s.operational then
    if s.cfg.hasWrite then
      match writeStatus s.cfg.m start count data with
      | .ok => s.complete (.writeBits start count data) (writeBits s.cfg.ct start count data s.port)
      | e => .next (s.raise (.writeBits start count data) e)
    else .refused .writePathAbsent
  else .refused .configurationRejected

end Sys2Proof.Machine
end

