-- ==== Sys2Proof/Machine/Dispatch.lean ====
section
/-! DEFINITION. One arm per instruction (30_encoding.md R79). -/

namespace Sys2Proof.Machine

open Sys2Proof

def exec (i : Instr) (s : State) : Host.Outcome State Fault Refusal :=
  match i with
  | .readBits start count => Sys2Proof.Machine.execReadBits start count s
  | .writeBits start count data => Sys2Proof.Machine.execWriteBits start count data s

end Sys2Proof.Machine
end

