-- ==== Sys2Proof/Machine/Step.lean ====
section
/-! DEFINITION. One step: the environment's next action, whole. An operation is one indivisible step, so the environment
has no move during it (20_memory.md R55, 70_reset_and_hazards.md R196, R197). -/

namespace Sys2Proof.Machine

open Sys2Proof

/-- One step of the machine. With nothing pending the block waits and nothing changes (R191; DEDUCED,
notes/assumptions/6.md). A command is decoded at the configured operand width and performed to completion (R75); an
access on the register-oriented path is performed as such (R83). -/
def step (s : State) : Host.Outcome State Fault Refusal :=
  match s.fetch with
  | none => .next s
  | some (.command w data, s') =>
    match decode s'.cfg.aw w data with
    | .ok i => exec i s'
    | .error _ => .refused (.notACommandWord w)
  | some (.regSet i v, s') => s'.regSet i v
  | some (.regGet i, s') => s'.regGet i

/-- `s` with a command of spec/opcode_table.json presented first on the command interface, at the operand width of the
table, beside a data operand of zeros (notes/assumptions/7.md). -/
def State.withFetchWord (s : State) (_nbits w : Nat) : State :=
  { s with
    cfg := { s.cfg with aw := tableAw }
    pending := .command w (tableData w) :: s.pending }

end Sys2Proof.Machine
end

