-- ==== Sys2Proof/Safety.lean ====
section
/-! DEFINITION. What counts as a safe run, in the terms the statements use: which bits and registers a request names,
what a well-formed history is, and what it means that a history is serial. No step calls anything here. -/

namespace Sys2Proof.Machine

open Sys2Proof

/-! ## What a request names -/

/-- Coil register index `r` holds at least one requested coil (20_memory.md R53). Stated over the bit addresses, so that
it does not lean on the formula for the number of registers. -/
def InSpan (start count r : Nat) : Prop := ∃ b, start ≤ b ∧ b < start + count ∧ b / 16 = r

/-- The entries of a request's span are pairwise distinct (41_write_bits.md R138). -/
def DistinctSpan (ct : List Nat) (start count : Nat) : Prop :=
  ∀ r r' i, InSpan start count r → InSpan start count r' → ct[r]? = some i → ct[r']? = some i → r = r'

/-- Position `p` of bank element `i` is the stored bit behind the requested coil `start + k` (R44). -/
def Names (ct : List Nat) (start k i p : Nat) : Prop := ct[(start + k) / 16]? = some i ∧ (start + k) % 16 = p

/-- Bit `p` of bank element `i`; none where the element does not exist. -/
def bankBit (b : List Word) (i p : Nat) : Option Bool := (b[i]?).map fun v => v.getLsbD p

/-! ## What an access is -/

/-- The Register Bank index of an event (R52). -/
def Access.register : Access → Nat
  | .get i => i
  | .set i _ => i

/-- Whether an event is a set. -/
def Access.isSet : Access → Bool
  | .get _ => false
  | .set _ _ => true

/-- What an event does to the bank: a get nothing, a set stores its value (R22). -/
def Access.apply (b : List Word) : Access → List Word
  | .get _ => b
  | .set i v => b.set i v

/-! ## Well-formed histories -/

/-- A response record: `buffer` has exactly `length` bytes (R72), and an error carries none (R164). -/
def Response.wf (r : Response) : Bool := r.length == r.buffer.length && (r.status == .ok || r.buffer.isEmpty)

/-- The accesses of one operation stay on registers that a Coil Table entry names and that exist (R21, R73). -/
def traceWf (ct : List Nat) (n : Nat) (tr : List Access) : Bool :=
  tr.all fun a => ct.contains a.register && decide (a.register < n)

/-- One event of a history: every response is a response record, errors have the empty trace (R164), a read sets nothing
(R54, R115) and a successful one has the length its count gives (R112), a write returns no bytes (R142), and every
access is on an existing register. -/
def Event.wf (ct : List Nat) (n : Nat) : Event → Bool
  | .served (.readBits _ count) r tr =>
    r.wf && traceWf ct n tr && (r.status == .ok || tr.isEmpty) && tr.all (fun a => !a.isSet) &&
      (r.status != .ok || r.length == packedLength count)
  | .served (.writeBits _ _ _) r tr =>
    r.wf && traceWf ct n tr && (r.status == .ok || tr.isEmpty) && r.length == 0
  | .regSet i _ => decide (i < n)
  | .regGet i _ => decide (i < n)

/-- The invariant of the machine: the configuration is one setup accepts (R193), and everything that happened is
well formed. -/
def State.Inv (s : State) : Prop :=
  s.operational = true ∧ ∀ e ∈ s.log, Event.wf s.cfg.ct s.bank.length e = true

/-! ## Serial histories (20_memory.md R57) -/

/-- One event, performed on the bank `b`, leaves the bank `b'`, and every value it reported was the one `b` held: a
successful read returned `b`'s coils, the environment's get observed `b`'s register (R22, R57). -/
def Event.Explained (ct : List Nat) (b : List Word) : Event → List Word → Prop
  | .served (.readBits start count) r _, b' =>
    b' = b ∧ (r.status = .ok → ∀ k < count, some (bufferBit r.buffer k) = coil ct b (start + k))
  | .served (.writeBits _ _ _) r tr, b' => b' = tr.foldl Access.apply b ∧ (r.status ≠ .ok → b' = b)
  | .regSet i v, b' => i < b.length ∧ b' = b.set i v
  | .regGet i v, b' => b[i]? = some v ∧ b' = b

/-- A list of events, performed one after another from the bank `b`, explains the bank `b'`: one total order, each
operation atomic in it (R55, R57). -/
def SerialHistory (ct : List Nat) : List Word → List Event → List Word → Prop
  | b, [], b' => b' = b
  | b, e :: es, b' => ∃ b1, e.Explained ct b b1 ∧ SerialHistory ct b1 es b'

end Sys2Proof.Machine
end

