-- ==== Sys2Proof/Certificates/Slice0/Obligations.lean ====
section
/-! DEFINITION. The statements for the provers. Every statement about an instruction quantifies over every configuration
and every bank: nothing here rests on the configuration or on the bank contents of `State.reset`. -/

open Sys2Proof Sys2Proof.Machine

/-! ## The command word -/

/-- 30_encoding.md R85: the decoder's fields, the encoder's formula, decode after encode and encode after decode are
each the identity on their domains, and the rule's two examples. -/
def Obligations.CommandWordsDecodeAndEncode : Prop :=
  (∀ (aw w : Nat) (data : List Byte), w < 2 ^ (2 * aw + 1) →
    decode aw w data = .ok
      (if w / 2 ^ (2 * aw) = 0 then .readBits (w / 2 ^ aw % 2 ^ aw) (w % 2 ^ aw)
       else .writeBits (w / 2 ^ aw % 2 ^ aw) (w % 2 ^ aw) data)) ∧
  (∀ (aw start count : Nat) (data : List Byte),
    encode aw (.readBits start count) = (0 * 2 ^ (2 * aw) + start * 2 ^ aw + count, []) ∧
    encode aw (.writeBits start count data) = (1 * 2 ^ (2 * aw) + start * 2 ^ aw + count, data)) ∧
  (∀ (aw : Nat) (i : Instr), i.wellFormed aw = true → decode aw (encode aw i).1 (encode aw i).2 = .ok i) ∧
  (∀ (aw w : Nat) (data : List Byte) (i : Instr), decode aw w data = .ok i →
    i.wellFormed aw = true ∧ (encode aw i).1 = w ∧ (w / 2 ^ (2 * aw) ≠ 0 → (encode aw i).2 = data)) ∧
  encode 16 (.readBits 12 8) = (0x0000C0008, []) ∧
  encode 16 (.writeBits 12 8 [0x3C]) = (0x1000C0008, [0x3C])

/-- 30_encoding.md R80: the decoder is total on command words and gives exactly one operation with operands in their
full ranges; both operations occur with every operand (the third clause). THE MODEL'S CHOICE, notes/assumptions/9.md
(DESIGN CHOICE), is the second clause: a wider number is rejected, by the name `widerThanCmd`. -/
def Obligations.EveryCommandWordIsOneInstruction : Prop :=
  ∀ (aw : Nat) (data : List Byte),
    (∀ w, w < 2 ^ (2 * aw + 1) → ∃ i, decode aw w data = .ok i ∧ i.wellFormed aw = true) ∧
    (∀ w, 2 ^ (2 * aw + 1) ≤ w → decode aw w data = .error .widerThanCmd) ∧
    (∀ start count, start < 2 ^ aw → count < 2 ^ aw →
      (∃ w, decode aw w data = .ok (.readBits start count)) ∧
      (∃ w, decode aw w data = .ok (.writeBits start count data)))

/-- 95_test_vectors.md section 2.5: the words of the spec's encoding table decode to the commands beside them. -/
def Obligations.SpecCommandWordsDecode : Prop :=
  decode 16 0x000000005 [] = .ok (.readBits 0 5) ∧
  decode 16 0x0000C0008 [] = .ok (.readBits 12 8) ∧
  decode 16 0x1000C0008 [0x3C] = .ok (.writeBits 12 8 [0x3C]) ∧
  decode 16 0x000040028 [] = .ok (.readBits 4 40) ∧
  decode 16 0x100000020 [1, 2, 3, 4] = .ok (.writeBits 0 32 [1, 2, 3, 4]) ∧
  decode 16 0x000000000 [] = .ok (.readBits 0 0) ∧
  decode 16 0x0FFFFFFFF [] = .ok (.readBits 65535 65535) ∧
  decode 16 0x1FFFFFFFF [] = .ok (.writeBits 65535 65535 [])

/-! ## The step -/

/-- A step whose next action is a command runs `exec` of the decoded instruction on the state without that action, and
does nothing around it. THE MODEL'S CHOICES are the second clause, notes/assumptions/9.md (DESIGN CHOICE): a number that
is no command word is refused, by the name `notACommandWord`; and the third, notes/assumptions/7.md (DESIGN CHOICE): the
host's `withFetchWord` presents exactly the instruction the table's word decodes to, at `AW = 16` and, for a write,
beside a data operand of zeros. -/
def Obligations.StepRunsTheDecodedCommand : Prop :=
  (∀ (s : State) (w : Nat) (data : List Byte) (rest : List EnvAction) (i : Instr),
    s.pending = .command w data :: rest → decode s.cfg.aw w data = .ok i →
    step s = exec i { s with pending := rest }) ∧
  (∀ (s : State) (w : Nat) (data : List Byte) (rest : List EnvAction),
    s.pending = .command w data :: rest → 2 ^ (2 * s.cfg.aw + 1) ≤ w →
    step s = .refused (.notACommandWord w)) ∧
  (∀ (s : State) (nbits w : Nat) (i : Instr), decodeTableWord nbits w = some i →
    step (s.withFetchWord nbits w) = exec i { s with cfg := { s.cfg with aw := 16 } })

/-- 70_reset_and_hazards.md R191, "After reset and setup the block waits for its first command". THE MODEL'S CHOICE,
notes/assumptions/6.md: waiting is a step that changes nothing. It holds of every block just set up (R190, R192). -/
def Obligations.BlockWaitsWithNothingPending : Prop :=
  (∀ s : State, s.pending = [] → step s = .next s) ∧
  (∀ (cfg : Config) (bank : List Word) (s : State), setUp cfg bank = .ok s →
    s.cfg = cfg ∧ s.bank = bank ∧ s.pending = [] ∧ s.log = [] ∧ step s = .next s)

/-- 10_state.md R22, 30_encoding.md R73: the register-oriented path. A set of an existing register makes exactly that
register hold the value; a get observes what the register holds and changes none. THE MODEL'S CHOICE,
notes/assumptions/8.md (DEDUCED), is the two clauses for `i >= N`: R73 requires `i < N` and gives no effect otherwise, and
the model stops there with the fault `noSuchRegister`. -/
def Obligations.RegisterPathIsPlainStorage : Prop :=
  ∀ (s : State) (rest : List EnvAction) (i : Nat),
    (∀ v : Word, s.pending = .regSet i v :: rest →
      (i < s.bank.length → ∃ bank', step s = .next
          { cfg := s.cfg, bank := bank', pending := rest, log := s.log ++ [.regSet i v] } ∧
        bank'.length = s.bank.length ∧ bank'[i]? = some v ∧ ∀ j, j ≠ i → bank'[j]? = s.bank[j]?) ∧
      (s.bank.length ≤ i → step s = .fault (.noSuchRegister i))) ∧
    (s.pending = .regGet i :: rest →
      (∀ v : Word, s.bank[i]? = some v → step s = .next
        { cfg := s.cfg, bank := s.bank, pending := rest, log := s.log ++ [.regGet i v] }) ∧
      (s.bank.length ≤ i → step s = .fault (.noSuchRegister i)))

/-- 30_encoding.md R75: every command of an operational block with the write path is answered, whatever its operands, by
exactly one response, and only that command is taken; the block is then free for the next action. -/
def Obligations.EveryCommandIsAnsweredOnce : Prop :=
  ∀ (s : State) (w : Nat) (data : List Byte) (rest : List EnvAction),
    s.operational = true → s.cfg.hasWrite = true → s.pending = .command w data :: rest →
    w < 2 ^ (2 * s.cfg.aw + 1) →
    ∃ (t : State) (i : Instr) (r : Response) (tr : List Access), step s = .next t ∧
      decode s.cfg.aw w data = .ok i ∧ t.log = s.log ++ [.served i r tr] ∧ t.pending = rest ∧ t.cfg = s.cfg

/-- 70_reset_and_hazards.md R194, R195: no step changes the configuration or the number of registers. -/
def Obligations.StepKeepsConfiguration : Prop :=
  ∀ s t : State, step s = .next t → t.cfg = s.cfg ∧ t.bank.length = s.bank.length

/-- The invariant of the machine is kept by every step from every state that has it: the configuration stays one that
setup accepts, every response is a response record (R72), errors have the empty trace (R164), reads set nothing (R115),
lengths follow from counts (R112), and every access is on an existing register that a Coil Table entry names (R21). -/
def Obligations.StepKeepsTheHistoryWellFormed : Prop :=
  ∀ s t : State, s.Inv → step s = .next t → t.Inv

/-- The invariant holds of every block just set up, and of the reset state, whose configuration and bank are THE MODEL'S
CHOICES, notes/assumptions/3.md and notes/assumptions/2.md (DESIGN CHOICE). -/
def Obligations.SetUpHistoryWellFormed : Prop :=
  (∀ (cfg : Config) (bank : List Word) (s : State), setUp cfg bank = .ok s → s.Inv) ∧ State.reset.Inv

/-- 20_memory.md R57, R58, 10_state.md R22: consistency is sequential and serial. If the history so far, performed event
by event from the initial bank `b0`, explains the present bank, then so it does after any step: every successful read
returned the coils of the bank at its place in the order, whichever path had set them. Second clause: every block just
set up starts so. -/
def Obligations.EveryHistoryIsSerial : Prop :=
  (∀ (b0 : List Word) (s t : State), s.operational = true → SerialHistory s.cfg.ct b0 s.log s.bank →
    step s = .next t → SerialHistory t.cfg.ct b0 t.log t.bank) ∧
  (∀ (cfg : Config) (bank : List Word) (s : State), setUp cfg bank = .ok s →
    SerialHistory s.cfg.ct bank s.log s.bank)

/-! ## Setup and parameters -/

/-- 70_reset_and_hazards.md R193 (with R7's `AW >= 1`): setup accepts exactly the valid configurations; an empty table is
accepted and makes every request an error; repeated entries are accepted (the first clause asks for no distinctness).
THE MODEL'S CHOICE, notes/assumptions/11.md (DESIGN CHOICE), is the second clause: of a configuration that fails, `AW = 0`
included, the spec says that no rule applies, and the model refuses every command on it, by the name
`configurationRejected`. -/
def Obligations.SetupAcceptsExactlyValidConfigurations : Prop :=
  (∀ (cfg : Config) (bank : List Word), 1 ≤ cfg.aw →
    ((∃ s, setUp cfg bank = .ok s) ↔
      cfg.m ≤ bank.length ∧ ∀ r < cfg.m, ∃ i, cfg.ct[r]? = some i ∧ i < bank.length)) ∧
  (∀ (cfg : Config) (bank : List Word), (¬ ∃ s, setUp cfg bank = .ok s) →
    setUp cfg bank = .error .configurationRejected ∧
    ∀ (i : Instr) (s : State), s.cfg = cfg → s.bank = bank → exec i s = .refused .configurationRejected) ∧
  (∀ (s : State) (i : Instr), s.operational = true → s.cfg.ct = [] →
    (s.cfg.hasWrite = true ∨ ∃ start count, i = .readBits start count) →
    ∃ r : Response, exec i s = .next { s with log := s.log ++ [.served i r []] } ∧ r.status ≠ .ok)

/-- 41_write_bits.md R143: without the write path a write command is refused by name, in every operational state and
whatever its operands; it changes nothing and answers no status. -/
def Obligations.WriteBitsRefusedWithoutWritePath : Prop :=
  ∀ (s : State) (start count : Nat) (data : List Byte), s.operational = true → s.cfg.hasWrite = false →
    exec (.writeBits start count data) s = .refused .writePathAbsent

/-- 30_encoding.md R82: the status codes, and that the value 3 is never produced. -/
def Obligations.StatusCodesAreTheSpecs : Prop :=
  Status.code .ok = 0 ∧ Status.code .invalidArgument = 1 ∧ Status.code .outOfRange = 2 ∧
  ∀ e : Status, e.code ≠ 3

/-! ## Address translation and the span -/

/-- 20_memory.md R43, R44, R45: a bit address is valid iff it is below `16 * M`, and then names bit `b % 16` of
`x[CT[b / 16]]`; a request is in range iff every one of its bit addresses is valid. -/
def Obligations.BitAddressesTranslateThroughTheTable : Prop :=
  (∀ (s : State), s.operational = true → ∀ b : Nat,
    ((coil s.cfg.ct s.bank b).isSome = true ↔ b < 16 * s.cfg.m) ∧
    (b < 16 * s.cfg.m → ∃ i v, s.cfg.ct[b / 16]? = some i ∧ s.bank[i]? = some v ∧
      coil s.cfg.ct s.bank b = some (decide ((v.toNat >>> (b % 16)) % 2 = 1)))) ∧
  (∀ start count m : Nat, 1 ≤ count →
    (start + count ≤ 16 * m ↔ ∀ b, start ≤ b → b < start + count → b < 16 * m))

/-- 40_read_bits.md R104, with the quantities of R102 and R103: the span ends at entry `(start + count - 1) / 16`, stays
inside the table, and every entry of it holds a requested coil. -/
def Obligations.SpanStaysInsideTheTable : Prop :=
  ∀ (ct : List Nat) (start count fr o t : Nat), 1 ≤ count → start + count ≤ 16 * ct.length →
    fr = firstRegister start → o = bitOffset start → t = totalRegisters o count →
    16 * fr + o + count - 1 = start + count - 1 ∧
    fr + t - 1 = (start + count - 1) / 16 ∧ fr + t - 1 ≤ ct.length - 1 ∧
    (∀ j < t, ∃ i, ct[fr + j]? = some i ∧ (span ct start count)[j]? = some i) ∧
    (span ct start count).length = t ∧ t ≤ ct.length - fr ∧ ct.length - fr ≤ ct.length ∧
    start / 16 = fr ∧
    (∀ j, 1 ≤ j → j ≤ t - 1 → start ≤ 16 * (fr + j) ∧ 16 * (fr + j) ≤ start + count - 1)

/-- 40_read_bits.md R102, R103, R106: the step formulas give the ranges the rules state for them. -/
def Obligations.RequestQuantitiesHaveTheirRanges : Prop :=
  ∀ start count : Nat, 1 ≤ count →
    firstRegister start = start / 16 ∧ bitOffset start = start % 16 ∧ bitOffset start ≤ 15 ∧
    start = 16 * firstRegister start + bitOffset start ∧
    totalRegisters (bitOffset start) count = (start % 16 + count - 1) / 16 + 1 ∧
    1 ≤ totalRegisters (bitOffset start) count ∧
    byteShift (bitOffset start) = start % 16 % 8 ∧ byteOffset (bitOffset start) = start % 16 / 8 ∧
    byteShift (bitOffset start) ≤ 7 ∧
    (byteOffset (bitOffset start) = 0 ∨ byteOffset (bitOffset start) = 1) ∧
    bitOffset start = 8 * byteOffset (bitOffset start) + byteShift (bitOffset start)

/-- 20_memory.md R53: every event of an operation's trace is on `CT[r]` for an `r` of the span `fr <= r < fr + T`, every
such `r` holds a requested coil, and no register outside the span changes. For every instruction that answers. -/
def Obligations.AccessesStayInTheMinimalSpan : Prop :=
  ∀ (s t : State) (i : Instr), exec i s = .next t →
    ∃ (r : Response) (tr : List Access), t.log = s.log ++ [.served i r tr] ∧
      (∀ a ∈ tr, ∃ e, i.start / 16 ≤ e ∧ e < i.start / 16 + ((i.start % 16 + i.count - 1) / 16 + 1) ∧
        s.cfg.ct[e]? = some a.register) ∧
      (1 ≤ i.count → ∀ e, i.start / 16 ≤ e → e < i.start / 16 + ((i.start % 16 + i.count - 1) / 16 + 1) →
        InSpan i.start i.count e) ∧
      (∀ k, (∀ e, InSpan i.start i.count e → s.cfg.ct[e]? ≠ some k) →
        t.bank[k]? = s.bank[k]? ∧ ∀ a ∈ tr, a.register ≠ k)

/-- 10_state.md R21: a bank element that no Coil Table entry names is never read or written by the block. -/
def Obligations.UnnamedRegistersAreNeverTouched : Prop :=
  ∀ (s t : State) (i : Instr) (k : Nat), k ∉ s.cfg.ct → exec i s = .next t →
    t.bank[k]? = s.bank[k]? ∧
    ∃ (r : Response) (tr : List Access), t.log = s.log ++ [.served i r tr] ∧ ∀ a ∈ tr, a.register ≠ k

/-! ## READ_BITS -/

/-- 40_read_bits.md R111: an in-range read completes; its response has `ceil(count / 8)` bytes whose bit `k` is
`coil(start + k)` below `count` and zero from there on; equivalently the bytes as one little-endian number are
`(X >> o) % 2^count` of the span as one little-endian number. Frame: nothing but the record of the response changes. -/
def Obligations.ReadBitsReturnsTheCoils : Prop :=
  ∀ (s : State) (start count : Nat), s.operational = true → 1 ≤ count → start + count ≤ 16 * s.cfg.m →
    ∃ (buffer : List Byte) (tr : List Access) (vs : List Word),
      exec (.readBits start count) s = .next { s with
        log := s.log ++ [.served (.readBits start count)
          { status := .ok, length := (count + 7) / 8, buffer := buffer } tr] } ∧
      buffer.length = (count + 7) / 8 ∧
      (∀ k, k < count → some (bufferBit buffer k) = coil s.cfg.ct s.bank (start + k)) ∧
      (∀ k, count ≤ k → k < 8 * ((count + 7) / 8) → bufferBit buffer k = false) ∧
      vs.length = (start % 16 + count - 1) / 16 + 1 ∧
      (∀ j < vs.length, ∃ i, s.cfg.ct[start / 16 + j]? = some i ∧ s.bank[i]? = vs[j]?) ∧
      littleEndianBytes buffer = (littleEndianWords vs >>> (start % 16)) % 2 ^ count

/-- 40_read_bits.md R112: the length of a successful read is `((count - 1) / 8) + 1`, so it depends on `count` alone:
two reads of one count, anywhere in any two blocks, have one length. -/
def Obligations.ReadBitsLengthFollowsFromCount : Prop :=
  ∀ (s s' : State) (start start' count : Nat), s.operational = true → s'.operational = true → 1 ≤ count →
    start + count ≤ 16 * s.cfg.m → start' + count ≤ 16 * s'.cfg.m →
    ∃ (buffer buffer' : List Byte) (tr tr' : List Access),
      exec (.readBits start count) s = .next { s with
        log := s.log ++ [.served (.readBits start count)
          { status := .ok, length := (count - 1) / 8 + 1, buffer := buffer } tr] } ∧
      exec (.readBits start' count) s' = .next { s' with
        log := s'.log ++ [.served (.readBits start' count)
          { status := .ok, length := (count - 1) / 8 + 1, buffer := buffer' } tr'] } ∧
      buffer.length = (count - 1) / 8 + 1 ∧ buffer'.length = (count - 1) / 8 + 1

/-- 40_read_bits.md R113: a successful read gets each entry of the span once, in ascending order, and sets nothing; a
read that raises has the empty trace. A repeated entry is got once per entry, since the trace follows the entries. -/
def Obligations.ReadBitsGetsTheSpanOnceInOrder : Prop :=
  (∀ (s : State) (start count : Nat), s.operational = true → 1 ≤ count → start + count ≤ 16 * s.cfg.m →
    ∃ (r : Response) (is : List Nat),
      exec (.readBits start count) s = .next { s with
        log := s.log ++ [.served (.readBits start count) r (is.map Access.get)] } ∧ r.status = .ok ∧
      is.length = (start % 16 + count - 1) / 16 + 1 ∧
      ∀ j < is.length, is[j]? = s.cfg.ct[start / 16 + j]?) ∧
  (∀ (s : State) (start count : Nat), s.operational = true → (count = 0 ∨ 16 * s.cfg.m < start + count) →
    ∃ r : Response, exec (.readBits start count) s = .next { s with
      log := s.log ++ [.served (.readBits start count) r []] } ∧ r.status ≠ .ok)

/-- 40_read_bits.md R115: the Register Bank is unchanged by a read, successful or not, and so is everything else but the
record of what happened. -/
def Obligations.ReadBitsLeavesTheBank : Prop :=
  ∀ (s t : State) (start count : Nat), exec (.readBits start count) s = .next t →
    t.bank = s.bank ∧ t.cfg = s.cfg ∧ t.pending = s.pending ∧
    ∃ (r : Response) (tr : List Access), t.log = s.log ++ [.served (.readBits start count) r tr] ∧
      ∀ a ∈ tr, a.isSet = false

/-- 20_memory.md R47, 40_read_bits.md R105: the working buffer starts as `2*T` zero bytes and, after the registers are
copied, byte `2*j` is `v % 256` and byte `2*j + 1` is `v / 256` of the `j`-th register, every byte overwritten. -/
def Obligations.WorkingBufferHoldsTheRegistersLowByteFirst : Prop :=
  ∀ vs : List Word,
    (∀ k < 2 * vs.length, (workingBuffer vs.length)[k]? = some 0) ∧
    (workingBuffer vs.length).length = 2 * vs.length ∧
    (copyRegisters (workingBuffer vs.length) 0 vs).length = 2 * vs.length ∧
    ∀ (j : Nat) (v : Word), vs[j]? = some v →
      (copyRegisters (workingBuffer vs.length) 0 vs)[2 * j]? = some (BitVec.ofNat 8 (v.toNat % 256)) ∧
      (copyRegisters (workingBuffer vs.length) 0 vs)[2 * j + 1]? = some (BitVec.ofNat 8 (v.toNat / 256))

/-- 40_read_bits.md R107: the shifted byte of every place but the last is
`trunc8((W[i] >> s) | (W[i+1] << (8 - s)))`, its bits `7-s .. 0` bits `7 .. s` of `W[i]` and its bits `7 .. 8-s` bits
`s-1 .. 0` of `W[i+1]`; the last is `W[i] >> s`, with zeros in bits `7 .. 8-s`. -/
def Obligations.ShiftMovesBitsAcrossBytes : Prop :=
  ∀ (s : Nat) (w : List Byte), s ≤ 7 → (shiftBytes s w).length = w.length ∧
    ∀ (i : Nat) (b : Byte), w[i]? = some b →
      (∀ next : Byte, w[i + 1]? = some next → ∃ x : Byte, (shiftBytes s w)[i]? = some x ∧
        x.toNat = ((b.toNat >>> s) ||| (next.toNat <<< (8 - s))) % 256 ∧
        (∀ p < 8 - s, x.getLsbD p = b.getLsbD (p + s)) ∧
        (∀ p, 8 - s ≤ p → p < 8 → x.getLsbD p = next.getLsbD (p - (8 - s)))) ∧
      (i + 1 = w.length → ∃ x : Byte, (shiftBytes s w)[i]? = some x ∧ x.toNat = b.toNat >>> s ∧
        ∀ p, 8 - s ≤ p → x.getLsbD p = false)

/-- 40_read_bits.md R114: a shift by zero is a no-op, and a byte-aligned start has that shift. -/
def Obligations.ShiftByZeroAltersNothing : Prop :=
  (∀ w : List Byte, shiftBytes 0 w = w) ∧ (∀ start : Nat, start % 8 = 0 → byteShift (bitOffset start) = 0)

/-- 40_read_bits.md R116: every buffer index the steps form is in range, and when `count % 8 = 0` no zero from beyond the
working buffer reaches the last result byte. -/
def Obligations.BufferIndicesStayInRange : Prop :=
  ∀ (start count o q t n : Nat) (w : List Byte), 1 ≤ count → o = bitOffset start → q = byteOffset o →
    t = totalRegisters o count → n = packedLength count → w.length = 2 * t →
    (shiftBytes (byteShift o) (w.drop q)).length = 2 * t - q ∧ n ≤ 2 * t - q ∧
    8 * (n - 1) < count ∧ o + 8 * (n - 1) < o + count ∧ o + count ≤ 16 * t ∧
    8 * (q + n - 1) ≤ o + 8 * (n - 1) ∧ q + n - 1 < 2 * t ∧
    (count % 8 = 0 → o + 8 * (n - 1) = o + count - 8 ∧ o + count - 1 < 16 * t)

/-! ## Errors -/

/-- 60_exceptions.md R165, with R161 to R164: the checks in their order, for both operations. A zero count is
`InvalidArgument` whatever else is wrong, then for a write a wrong data length, then an out-of-range request is
`OutOfRange`. Each raises: one response `(status, 0, empty)`, the empty trace, the bank as before. -/
def Obligations.ChecksRaiseInOrder : Prop :=
  ∀ (s : State) (start count : Nat) (data : List Byte), s.operational = true →
    (count = 0 → exec (.readBits start count) s = .next { s with
      log := s.log ++ [.served (.readBits start count) { status := .invalidArgument, length := 0, buffer := [] } []] }) ∧
    (1 ≤ count → 16 * s.cfg.m < start + count → exec (.readBits start count) s = .next { s with
      log := s.log ++ [.served (.readBits start count) { status := .outOfRange, length := 0, buffer := [] } []] }) ∧
    (s.cfg.hasWrite = true →
      ((count = 0 ∨ data.length ≠ (count - 1) / 8 + 1) → exec (.writeBits start count data) s = .next { s with
        log := s.log ++
          [.served (.writeBits start count data) { status := .invalidArgument, length := 0, buffer := [] } []] }) ∧
      (1 ≤ count → data.length = (count - 1) / 8 + 1 → 16 * s.cfg.m < start + count →
        exec (.writeBits start count data) s = .next { s with
          log := s.log ++
            [.served (.writeBits start count data) { status := .outOfRange, length := 0, buffer := [] } []] }))

/-- 60_exceptions.md R164, R166, R168: whichever command it was, an answer that is an error carries no bytes, has the
empty trace, and left the bank and everything else as before; an operation does all or nothing. -/
def Obligations.ErrorsTouchNothing : Prop :=
  ∀ (s t : State) (i : Instr) (r : Response) (tr : List Access), exec i s = .next t →
    t.log = s.log ++ [.served i r tr] → r.status ≠ .ok →
    r.length = 0 ∧ r.buffer = [] ∧ tr = [] ∧ t = { s with log := s.log ++ [.served i r tr] }

/-- 60_exceptions.md R167: after an error response the next command is treated exactly as if the failing one had never
been issued: same response, same trace, same bank. -/
def Obligations.ErrorsAreForgotten : Prop :=
  ∀ (s t : State) (i j : Instr) (r : Response), exec i s = .next t → t.log = s.log ++ [.served i r []] →
    r.status ≠ .ok → ∀ u, exec j s = .next u →
    ∃ (v : State) (q : Response) (tr : List Access), exec j t = .next v ∧ v.bank = u.bank ∧ v.cfg = u.cfg ∧
      u.log = s.log ++ [.served j q tr] ∧ v.log = t.log ++ [.served j q tr]

/-- 10_state.md R31, R33: the answer to a command depends on the command, the configuration and the bank alone. Two
states that agree on those answer alike, whatever happened before and whatever is pending. -/
def Obligations.AnswersDependOnCommandConfigurationAndBank : Prop :=
  ∀ (s s' : State) (i : Instr), s'.cfg = s.cfg → s'.bank = s.bank →
    (∀ t, exec i s = .next t → ∃ (t' : State) (r : Response) (tr : List Access), exec i s' = .next t' ∧
      t'.bank = t.bank ∧ t.log = s.log ++ [.served i r tr] ∧ t'.log = s'.log ++ [.served i r tr]) ∧
    (∀ f, exec i s = .fault f → exec i s' = .fault f) ∧
    (∀ f, exec i s = .refused f → exec i s' = .refused f)

/-- 60_exceptions.md R160, 30_encoding.md R73: on an operational block no command faults, and none is refused but a write
where the write path is absent: every other command completes with a status of its own, with the next state the only
outcome. -/
def Obligations.OperationalBlockAnswersEveryCommand : Prop :=
  ∀ (s : State) (i : Instr), s.operational = true →
    (s.cfg.hasWrite = true ∨ ∃ start count, i = .readBits start count) →
    ∃ (t : State) (r : Response) (tr : List Access), exec i s = .next t ∧ t.log = s.log ++ [.served i r tr] ∧
      t.cfg = s.cfg ∧ t.pending = s.pending ∧ r.buffer.length = r.length

/-! ## WRITE_BITS -/

/-- 41_write_bits.md R134: the coverage of the `j`-th register of a span. -/
def Obligations.CoverageMaskMarksTheCoveredPositions : Prop :=
  ∀ start count o t j : Nat, 1 ≤ count → o = start % 16 → t = (o + count - 1) / 16 + 1 → j < t →
    coverLo o j = (if j = 0 then o else 0) ∧ coverHi o count j = min 16 (o + count - 16 * j) ∧
    coverLo o j < coverHi o count j ∧ coverHi o count j ≤ 16 ∧
    (coverMask o count j).toNat = ((1 <<< (coverHi o count j - coverLo o j)) - 1) <<< coverLo o j ∧
    (∀ p < 16, (coverMask o count j).getLsbD p = decide (coverLo o j ≤ p ∧ p < coverHi o count j)) ∧
    (coverMask o count j = 0xFFFF ↔ coverLo o j = 0 ∧ coverHi o count j = 16) ∧
    (coverMask o count j ≠ 0xFFFF → (j = 0 ∧ o ≠ 0) ∨ (j = t - 1 ∧ (o + count) % 16 ≠ 0))

/-- 41_write_bits.md R136: the field of the `j`-th register holds bit `k = 16*j + p - o` of `data` at each covered
position `p`, with `k < count`, and zero at every other; bits of `data` from `count` on are never looked at. -/
def Obligations.FieldTakesTheRequestsData : Prop :=
  ∀ (start count o j : Nat) (data data' : List Byte), 1 ≤ count → o = start % 16 →
    j < (o + count - 1) / 16 + 1 → data.length = (count - 1) / 8 + 1 →
    (∀ p < 16, coverLo o j ≤ p → p < coverHi o count j →
      16 * j + p - o < count ∧ o ≤ 16 * j + p ∧
      ∃ b, data[(16 * j + p - o) / 8]? = some b ∧
        (coverField data o count j).getLsbD p = b.getLsbD ((16 * j + p - o) % 8)) ∧
    (∀ p < 16, ¬ (coverLo o j ≤ p ∧ p < coverHi o count j) → (coverField data o count j).getLsbD p = false) ∧
    ((∀ k < count, bufferBit data' k = bufferBit data k) → coverField data' o count j = coverField data o count j)

/-- 41_write_bits.md R135, R140, R142: an acceptable write completes, and does so by the procedure: the registers of the
span in ascending order, each set exactly once; a fully covered one without a get, a partially covered one after a get
that immediately precedes its set; `banks` are the banks between them, so a later register sees an earlier set. The
new value keeps the old bit at uncovered positions and takes the request's data at covered ones. There are `T` sets and
at most two gets. Frame: nothing but the bank and the record changes. -/
def Obligations.WriteBitsFollowsTheProcedure : Prop :=
  ∀ (s : State) (start count o t : Nat) (data : List Byte),
    s.operational = true → s.cfg.hasWrite = true → 1 ≤ count → data.length = (count - 1) / 8 + 1 →
    start + count ≤ 16 * s.cfg.m → o = start % 16 → t = (o + count - 1) / 16 + 1 →
    ∃ (banks : List (List Word)) (is : List Nat) (vs : List Word) (final : List Word) (tr : List Access),
      exec (.writeBits start count data) s = .next { s with
        bank := final
        log := s.log ++ [.served (.writeBits start count data) { status := .ok, length := 0, buffer := [] } tr] } ∧
      is.length = t ∧ vs.length = t ∧ banks.length = t + 1 ∧ banks[0]? = some s.bank ∧ banks[t]? = some final ∧
      (∀ j < t, is[j]? = s.cfg.ct[start / 16 + j]?) ∧
      (∀ (j i : Nat) (v : Word) (before after : List Word), is[j]? = some i → vs[j]? = some v →
        banks[j]? = some before → banks[j + 1]? = some after →
        after = before.set i v ∧
        ∃ old, before[i]? = some old ∧
          ∀ p < 16, v.getLsbD p =
            if coverLo o j ≤ p ∧ p < coverHi o count j then bufferBit data (16 * j + p - o) else old.getLsbD p) ∧
      tr = ((List.range t).map fun j =>
        if coverMask o count j = 0xFFFF then [Access.set (is.getD j 0) (vs.getD j 0)]
        else [Access.get (is.getD j 0), Access.set (is.getD j 0) (vs.getD j 0)]).flatten ∧
      (tr.filter Access.isSet).length = t ∧ (tr.filter fun a => !a.isSet).length ≤ 2

/-- 41_write_bits.md R141 (and, where nothing repeats, R130's result): an acceptable write completes, and each stored bit
that requested coils name takes the data of the LAST of them, while every stored bit that none names keeps its value.
This is the whole end state, for every table, with repeated entries or without. -/
def Obligations.WriteBitsLastNamingCoilWins : Prop :=
  ∀ (s : State) (start count : Nat) (data : List Byte),
    s.operational = true → s.cfg.hasWrite = true → 1 ≤ count → data.length = (count - 1) / 8 + 1 →
    start + count ≤ 16 * s.cfg.m →
    ∃ (bank' : List Word) (tr : List Access),
      exec (.writeBits start count data) s = .next { s with
        bank := bank'
        log := s.log ++ [.served (.writeBits start count data) { status := .ok, length := 0, buffer := [] } tr] } ∧
      bank'.length = s.bank.length ∧
      (∀ k < count, ∀ i p, Names s.cfg.ct start k i p →
        (∀ k', k < k' → k' < count → ¬ Names s.cfg.ct start k' i p) →
        bankBit bank' i p = some (bufferBit data k)) ∧
      (∀ i p, p < 16 → (∀ k < count, ¬ Names s.cfg.ct start k i p) → bankBit bank' i p = bankBit s.bank i p)

/-- 41_write_bits.md R130, "Result, stated without the steps": when the span's entries are distinct, afterwards
`coil(start + k)` is bit `k` of `data`, and every other stored bit is as before. -/
def Obligations.WriteBitsChangesExactlyTheAddressedBits : Prop :=
  ∀ (s : State) (start count : Nat) (data : List Byte),
    s.operational = true → s.cfg.hasWrite = true → 1 ≤ count → data.length = (count - 1) / 8 + 1 →
    start + count ≤ 16 * s.cfg.m → DistinctSpan s.cfg.ct start count →
    ∃ (bank' : List Word) (tr : List Access),
      exec (.writeBits start count data) s = .next { s with
        bank := bank'
        log := s.log ++ [.served (.writeBits start count data) { status := .ok, length := 0, buffer := [] } tr] } ∧
      (∀ k < count, coil s.cfg.ct bank' (start + k) = some (bufferBit data k)) ∧
      (∀ i p, p < 16 → (∀ k < count, ¬ Names s.cfg.ct start k i p) → bankBit bank' i p = bankBit s.bank i p)

/-- 41_write_bits.md R139: under the distinctness condition every bank element no span entry names is untouched, with no
event on it; in each span register every position outside `lo .. hi-1` keeps its value; and `coil(b)` is unchanged for
every valid `b` outside the request whose stored bit no covered position of the span shares. -/
def Obligations.WriteBitsPreservesWhatItDoesNotCover : Prop :=
  ∀ (s : State) (start count o t : Nat) (data : List Byte),
    s.operational = true → s.cfg.hasWrite = true → 1 ≤ count → data.length = (count - 1) / 8 + 1 →
    start + count ≤ 16 * s.cfg.m → DistinctSpan s.cfg.ct start count →
    o = start % 16 → t = (o + count - 1) / 16 + 1 →
    ∃ (bank' : List Word) (tr : List Access),
      exec (.writeBits start count data) s = .next { s with
        bank := bank'
        log := s.log ++ [.served (.writeBits start count data) { status := .ok, length := 0, buffer := [] } tr] } ∧
      (∀ i, (∀ j < t, s.cfg.ct[start / 16 + j]? ≠ some i) →
        bank'[i]? = s.bank[i]? ∧ ∀ a ∈ tr, a.register ≠ i) ∧
      (∀ j i p, j < t → s.cfg.ct[start / 16 + j]? = some i → p < 16 → (p < coverLo o j ∨ coverHi o count j ≤ p) →
        bankBit bank' i p = bankBit s.bank i p) ∧
      (∀ b < 16 * s.cfg.m, (b < start ∨ start + count ≤ b) →
        (∀ j i, j < t → s.cfg.ct[start / 16 + j]? = some i → s.cfg.ct[b / 16]? = some i →
          b % 16 < coverLo o j ∨ coverHi o count j ≤ b % 16) →
        coil s.cfg.ct bank' b = coil s.cfg.ct s.bank b)

/-- 41_write_bits.md R138: the round trip. When the span's entries are distinct, a write and the read of the same
`(start, count)` right after it both complete, and the read returns the written bytes, the last one with its padding
zeroed. Without the condition it can fail: on the table `[1, 1]` it does. -/
def Obligations.WriteThenReadReturnsTheData : Prop :=
  (∀ (s : State) (start count : Nat) (data : List Byte),
    s.operational = true → s.cfg.hasWrite = true → 1 ≤ count → data.length = (count - 1) / 8 + 1 →
    start + count ≤ 16 * s.cfg.m → DistinctSpan s.cfg.ct start count →
    ∃ (t u : State) (buffer : List Byte) (tr : List Access),
      exec (.writeBits start count data) s = .next t ∧ exec (.readBits start count) t = .next u ∧
      u.log = t.log ++ [.served (.readBits start count)
        { status := .ok, length := data.length, buffer := buffer } tr] ∧
      buffer.length = data.length ∧
      (∀ i, i < data.length - 1 → buffer[i]? = data[i]?) ∧
      (count % 8 = 0 → buffer = data) ∧
      (count % 8 ≠ 0 → buffer[data.length - 1]? =
        (data[data.length - 1]?).map (· &&& BitVec.ofNat 8 ((1 <<< (count % 8)) - 1)))) ∧
  (∃ (s t u : State) (tr : List Access), s.operational = true ∧ s.cfg.ct = [1, 1] ∧
    exec (.writeBits 0 32 [0x11, 0x22, 0x33, 0x44]) s = .next t ∧ exec (.readBits 0 32) t = .next u ∧
    u.log = t.log ++ [.served (.readBits 0 32) { status := .ok, length := 4, buffer := [0x33, 0x44, 0x33, 0x44] } tr])

/-- 41_write_bits.md R137: with distinct span entries, the span after the write is
`(X & ~(((1 << count) - 1) << o)) | (D << o)`, and the `j`-th register of the span is `(X' >> (16*j)) % 65536`. -/
def Obligations.WriteBitsAsShiftArithmetic : Prop :=
  ∀ (s : State) (start count o t d x x' : Nat) (data : List Byte) (is : List Nat) (olds : List Word),
    s.operational = true → s.cfg.hasWrite = true → 1 ≤ count → data.length = (count - 1) / 8 + 1 →
    start + count ≤ 16 * s.cfg.m → DistinctSpan s.cfg.ct start count →
    o = start % 16 → t = (o + count - 1) / 16 + 1 → is.length = t → olds.length = t →
    (∀ j < t, is[j]? = s.cfg.ct[start / 16 + j]? ∧ ∃ i, is[j]? = some i ∧ olds[j]? = s.bank[i]?) →
    d = littleEndianBytes data % 2 ^ count → x = littleEndianWords olds →
    x' = (x &&& ((2 ^ (16 * t) - 1) ^^^ (((1 <<< count) - 1) <<< o))) ||| (d <<< o) →
    ∃ (bank' news : List Word) (tr : List Access),
      exec (.writeBits start count data) s = .next { s with
        bank := bank'
        log := s.log ++ [.served (.writeBits start count data) { status := .ok, length := 0, buffer := [] } tr] } ∧
      news.length = t ∧ (∀ j < t, ∃ i, is[j]? = some i ∧ news[j]? = bank'[i]?) ∧
      littleEndianWords news = x' ∧
      ∀ (j : Nat) (v : Word), news[j]? = some v → v.toNat = (x' >>> (16 * j)) % 65536

/-- 41_write_bits.md R136, decision D10: the padding bits of `data` have no effect on anything: two writes whose data
agree below `count` leave the same bank, give the same response and make the same accesses. -/
def Obligations.WriteBitsIgnoresPadding : Prop :=
  ∀ (s : State) (start count : Nat) (data data' : List Byte),
    s.operational = true → s.cfg.hasWrite = true → data'.length = data.length →
    (∀ k < count, bufferBit data' k = bufferBit data k) →
    ∃ (t t' : State) (r : Response) (tr : List Access),
      exec (.writeBits start count data) s = .next t ∧ exec (.writeBits start count data') s = .next t' ∧
      t'.bank = t.bank ∧ t.log = s.log ++ [.served (.writeBits start count data) r tr] ∧
      t'.log = s.log ++ [.served (.writeBits start count data') r tr]

/-- 20_memory.md R54: repeating a read gives the same response and leaves the bank; performing a write twice leaves the
bank as performing it once when the span's entries are distinct. -/
def Obligations.OperationsAreIdempotent : Prop :=
  (∀ (s : State) (start count : Nat), s.operational = true →
    ∃ (t u : State) (r : Response) (tr : List Access),
      exec (.readBits start count) s = .next t ∧ exec (.readBits start count) t = .next u ∧
      t.bank = s.bank ∧ u.bank = s.bank ∧ t.log = s.log ++ [.served (.readBits start count) r tr] ∧
      u.log = t.log ++ [.served (.readBits start count) r tr] ∧ ∀ a ∈ tr, a.isSet = false) ∧
  (∀ (s : State) (start count : Nat) (data : List Byte), s.operational = true → s.cfg.hasWrite = true →
    DistinctSpan s.cfg.ct start count →
    ∃ t u : State, exec (.writeBits start count data) s = .next t ∧ exec (.writeBits start count data) t = .next u ∧
      u.bank = t.bank)

/-- 20_memory.md R49: the two views are one storage. A register set to `v` through the register view reads through entry
`r` as coils that are the bits of `v`, low byte first; sixteen coils written through entry `r` as `[d0, d1]` make the
register `d0 + 256 * d1` as the register view sees it. Nothing stands between the two accesses (R58). -/
def Obligations.TwoViewsAreOneStorage : Prop :=
  ∀ (s : State) (r i : Nat) (rest : List EnvAction), s.operational = true → s.cfg.ct[r]? = some i →
    16 * r < 2 ^ s.cfg.aw → 16 < 2 ^ s.cfg.aw →
    (∀ v : Word, s.pending =
        .regSet i v :: .command (encode s.cfg.aw (.readBits (16 * r) 16)).1 [] :: rest →
      ∃ (t u : State) (tr : List Access), step s = .next t ∧ step t = .next u ∧
        u.log = t.log ++ [.served (.readBits (16 * r) 16)
          { status := .ok, length := 2,
            buffer := [BitVec.ofNat 8 (v.toNat % 256), BitVec.ofNat 8 (v.toNat / 256)] } tr] ∧
        ∀ p < 16, coil t.cfg.ct t.bank (16 * r + p) = some (v.getLsbD p)) ∧
    (∀ d0 d1 : Byte, s.cfg.hasWrite = true → s.pending =
        .command (encode s.cfg.aw (.writeBits (16 * r) 16 [d0, d1])).1 [d0, d1] :: .regGet i :: rest →
      ∃ t u : State, step s = .next t ∧ step t = .next u ∧
        u.log = t.log ++ [.regGet i (BitVec.ofNat 16 (d0.toNat + 256 * d1.toNat))])
end

