-- ==== Sys2Proof/Laws/Decode.lean ====
section
/-! SUPPORT. The arithmetic of the command word's fields. -/

namespace Sys2Proof

/-- Putting a field below another one loses neither. -/
theorem field_split (a n x : Nat) (h : x < 2 ^ n) : (a * 2 ^ n + x) / 2 ^ n = a ∧ (a * 2 ^ n + x) % 2 ^ n = x := by
  have hp : 0 < 2 ^ n := Nat.two_pow_pos n
  constructor
  · rw [Nat.add_comm, Nat.add_mul_div_right _ _ hp, Nat.div_eq_of_lt h, Nat.zero_add]
  · rw [Nat.add_comm, Nat.add_mul_mod_self_right, Nat.mod_eq_of_lt h]

/-- A command word as nested fields. -/
theorem word_nested (aw op start count : Nat) :
    op * 2 ^ (2 * aw) + start * 2 ^ aw + count = (op * 2 ^ aw + start) * 2 ^ aw + count := by
  rw [Nat.two_mul, Nat.pow_add]; ring

theorem opField_eq (aw op start count : Nat) (hs : start < 2 ^ aw) (hc : count < 2 ^ aw) :
    opField aw (op * 2 ^ (2 * aw) + start * 2 ^ aw + count) = op := by
  rw [opField, word_nested, Nat.two_mul, Nat.pow_add, ← Nat.div_div_eq_div_mul, (field_split _ _ _ hc).1,
    (field_split _ _ _ hs).1]

theorem startField_eq (aw op start count : Nat) (hs : start < 2 ^ aw) (hc : count < 2 ^ aw) :
    startField aw (op * 2 ^ (2 * aw) + start * 2 ^ aw + count) = start := by
  rw [startField, word_nested, (field_split _ _ _ hc).1, (field_split _ _ _ hs).2]

theorem countField_eq (aw op start count : Nat) (hc : count < 2 ^ aw) :
    countField aw (op * 2 ^ (2 * aw) + start * 2 ^ aw + count) = count := by
  rw [countField, word_nested, (field_split _ _ _ hc).2]

/-- Two fields that fit and an operation bit fill at most the format's width (R77). -/
theorem word_lt (aw op start count : Nat) (ho : op ≤ 1) (hs : start < 2 ^ aw) (hc : count < 2 ^ aw) :
    op * 2 ^ (2 * aw) + start * 2 ^ aw + count < 2 ^ cmdWidth aw := by
  have h1 : op * 2 ^ (2 * aw) ≤ 2 ^ (2 * aw) := by simpa using Nat.mul_le_mul_right (2 ^ (2 * aw)) ho
  have h2 : start * 2 ^ aw + count < 2 ^ (2 * aw) := by
    calc start * 2 ^ aw + count < start * 2 ^ aw + 2 ^ aw := by omega
      _ = (start + 1) * 2 ^ aw := by ring
      _ ≤ 2 ^ aw * 2 ^ aw := Nat.mul_le_mul_right _ hs
      _ = 2 ^ (2 * aw) := by rw [← Nat.pow_add, Nat.two_mul]
  rw [cmdWidth, Nat.pow_succ]; omega

/-- A word is its three fields put together (R85). -/
theorem word_of_fields (aw w : Nat) :
    opField aw w * 2 ^ (2 * aw) + startField aw w * 2 ^ aw + countField aw w = w := by
  rw [word_nested, opField, startField, countField, Nat.two_mul, Nat.pow_add, ← Nat.div_div_eq_div_mul]
  rw [Nat.mul_comm (w / 2 ^ aw / 2 ^ aw), Nat.div_add_mod, Nat.mul_comm, Nat.div_add_mod]

theorem opField_le (aw w : Nat) (h : w < 2 ^ cmdWidth aw) : opField aw w ≤ 1 := by
  have : opField aw w < 2 := by
    rw [opField, Nat.div_lt_iff_lt_mul (Nat.two_pow_pos _)]; rwa [cmdWidth, Nat.pow_succ, Nat.mul_comm] at h
  omega

/-- Everything the decoder can answer. -/
theorem decode_ok {aw w : Nat} {data : List Byte} {i : Instr} (h : decode aw w data = .ok i) :
    w < 2 ^ cmdWidth aw ∧
      ((opField aw w = 0 ∧ i = .readBits (startField aw w) (countField aw w)) ∨
        (opField aw w = 1 ∧ i = .writeBits (startField aw w) (countField aw w) data)) := by
  unfold decode at h
  split at h
  · next hw =>
    refine ⟨hw, ?_⟩
    split at h
    · next h0 => cases h; exact .inl ⟨h0, rfl⟩
    · next h0 => cases h; exact .inr ⟨by have := opField_le aw w hw; omega, rfl⟩
  · cases h

end Sys2Proof
end

