-- ==== Sys2Proof/Laws/Operands.lean ====
section
/-! SUPPORT. What the operand functions compute, bit by bit. -/

namespace Sys2Proof.Machine

open Sys2Proof

/-! ## Bytes of a register (R47) -/

@[simp] theorem lowByte_getLsbD (v : Word) (k : Nat) : (lowByte v).getLsbD k = (decide (k < 8) && v.getLsbD k) := by
  simp [lowByte]

@[simp] theorem highByte_getLsbD (v : Word) (k : Nat) :
    (highByte v).getLsbD k = (decide (k < 8) && v.getLsbD (8 + k)) := by
  simp [highByte]

/-- Registers laid out as bytes, low byte first. -/
def layOut (vs : List Word) : List Byte := vs.flatMap fun v => [lowByte v, highByte v]

@[simp] theorem layOut_nil : layOut [] = [] := rfl
@[simp] theorem layOut_cons (v : Word) (vs : List Word) :
    layOut (v :: vs) = lowByte v :: highByte v :: layOut vs := rfl

@[simp] theorem layOut_length (vs : List Word) : (layOut vs).length = 2 * vs.length := by
  induction vs with
  | nil => rfl
  | cons v vs ih => simp [ih]; omega

theorem set_append_middle {α : Type} (a : List α) (x y : α) (b : List α) (n : Nat) (h : n = a.length) :
    (a ++ x :: b).set n y = a ++ y :: b := by
  subst h; simp

/-- Copying registers overwrites exactly their places in the buffer (R105). -/
theorem copyRegisters_append (vs : List Word) (pre mid post : List Byte) (j : Nat)
    (hp : pre.length = 2 * j) (hm : mid.length = 2 * vs.length) :
    copyRegisters (pre ++ mid ++ post) j vs = pre ++ layOut vs ++ post := by
  induction vs generalizing pre mid j with
  | nil => simp_all [copyRegisters]
  | cons v vs ih =>
    obtain _ | ⟨a, _ | ⟨b, mid⟩⟩ := mid
    · simp at hm
    · simp at hm; omega
    · have h1 : storeRegister (pre ++ (a :: b :: mid) ++ post) j v
          = (pre ++ [lowByte v, highByte v]) ++ mid ++ post := by
        have e1 : pre ++ (a :: b :: mid) ++ post = pre ++ a :: (b :: (mid ++ post)) := by simp
        have e2 : pre ++ lowByte v :: (b :: (mid ++ post)) = (pre ++ [lowByte v]) ++ b :: (mid ++ post) := by simp
        rw [storeRegister, e1, set_append_middle _ _ _ _ _ hp.symm, e2,
          set_append_middle _ _ _ _ _ (by simp [hp])]
        simp
      rw [copyRegisters, h1, ih (pre ++ [lowByte v, highByte v]) mid (j + 1) (by simp [hp]; omega)
        (by simp at hm; omega)]
      simp

/-- The zero fill is not observable: after the copy every byte has been overwritten (R105). -/
theorem copyRegisters_workingBuffer (vs : List Word) :
    copyRegisters (workingBuffer vs.length) 0 vs = layOut vs := by
  have := copyRegisters_append vs [] (workingBuffer vs.length) [] 0 (by simp) (by simp [workingBuffer])
  simpa using this

/-! ## Bits of byte and register sequences -/

/-- Bit `k` of a register sequence read as one little-endian number. -/
def wordsBit (vs : List Word) (k : Nat) : Bool := (vs.getD (k / 16) 0).getLsbD (k % 16)

theorem bufferBit_cons (b : Byte) (bs : List Byte) (k : Nat) :
    bufferBit (b :: bs) k = if k < 8 then b.getLsbD k else bufferBit bs (k - 8) := by
  unfold bufferBit
  split
  · next h => simp [Nat.div_eq_of_lt h, Nat.mod_eq_of_lt h]
  · next h =>
    have h1 : k / 8 = (k - 8) / 8 + 1 := by omega
    have h2 : k % 8 = (k - 8) % 8 := by omega
    rw [h1, h2]; simp

@[simp] theorem bufferBit_nil (k : Nat) : bufferBit [] k = false := by simp [bufferBit]

theorem wordsBit_cons (v : Word) (vs : List Word) (k : Nat) :
    wordsBit (v :: vs) k = if k < 16 then v.getLsbD k else wordsBit vs (k - 16) := by
  unfold wordsBit
  split
  · next h => simp [Nat.div_eq_of_lt h, Nat.mod_eq_of_lt h]
  · next h =>
    have h1 : k / 16 = (k - 16) / 16 + 1 := by omega
    have h2 : k % 16 = (k - 16) % 16 := by omega
    rw [h1, h2]; simp

@[simp] theorem wordsBit_nil (k : Nat) : wordsBit [] k = false := by simp [wordsBit]

/-- The working buffer and the registers are the same bits in the same order (R47). -/
theorem bufferBit_layOut (vs : List Word) (k : Nat) : bufferBit (layOut vs) k = wordsBit vs k := by
  induction vs generalizing k with
  | nil => simp
  | cons v vs ih =>
    rw [layOut_cons, bufferBit_cons, bufferBit_cons, wordsBit_cons]
    by_cases h1 : k < 8
    · simp [-BitVec.getLsbD_eq_getElem, h1, show k < 16 by omega]
    · by_cases h2 : k < 16
      · simp [-BitVec.getLsbD_eq_getElem, h1, h2, show k - 8 < 8 by omega, show 8 + (k - 8) = k by omega]
      · simp [h1, h2, show ¬ k - 8 < 8 by omega, ih, show k - 8 - 8 = k - 16 by omega]

/-- A bit beyond the sequence is false. -/
theorem bufferBit_of_le (b : List Byte) (k : Nat) (h : 8 * b.length ≤ k) : bufferBit b k = false := by
  have : b.length ≤ k / 8 := by omega
  simp [bufferBit, this]

theorem bufferBit_drop (b : List Byte) (q k : Nat) : bufferBit (b.drop q) k = bufferBit b (8 * q + k) := by
  have h1 : (8 * q + k) / 8 = q + k / 8 := by omega
  have h2 : (8 * q + k) % 8 = k % 8 := by omega
  simp [bufferBit, h1, h2]

theorem bufferBit_take (b : List Byte) (n k : Nat) :
    bufferBit (b.take n) k = (decide (k < 8 * n) && bufferBit b k) := by
  unfold bufferBit
  by_cases h : k < 8 * n
  · have h' : k / 8 < n := by omega
    simp [h, List.getD_eq_getElem?_getD, h']
  · have h' : ¬ k / 8 < n := by omega
    simp [h, List.getD_eq_getElem?_getD, h']

@[simp] theorem shiftBytes_length (s : Nat) (b : List Byte) : (shiftBytes s b).length = b.length := by
  induction b with
  | nil => rfl
  | cons x xs ih => cases xs <;> simp_all [shiftBytes]

/-- Bit `k` of the shifted sequence is bit `s + k` of the sequence (R107). -/
theorem bufferBit_shiftBytes (s : Nat) (hs : s ≤ 7) (b : List Byte) (k : Nat) :
    bufferBit (shiftBytes s b) k = bufferBit b (s + k) := by
  induction b generalizing k with
  | nil => simp [shiftBytes]
  | cons x xs ih =>
    cases xs with
    | nil =>
      rw [shiftBytes, bufferBit_cons, bufferBit_cons, BitVec.getLsbD_ushiftRight]
      by_cases h2 : s + k < 8
      · simp only [show k < 8 by omega, h2, if_true]
      · have : x.getLsbD (s + k) = false := BitVec.getLsbD_of_ge _ _ (by omega)
        simp only [this, h2, bufferBit_nil, ite_self]
    | cons y ys =>
      rw [shiftBytes, bufferBit_cons, bufferBit_cons, ih]
      by_cases h : k < 8
      · rw [if_pos h, shiftedByte, BitVec.getLsbD_or, BitVec.getLsbD_ushiftRight, BitVec.getLsbD_shiftLeft]
        by_cases h2 : s + k < 8
        · simp only [h2, show k < 8 - s by omega, h, if_true, decide_true, Bool.not_true, Bool.and_false,
            Bool.false_and, Bool.or_false]
        · have h3 : x.getLsbD (s + k) = false := BitVec.getLsbD_of_ge _ _ (by omega)
          rw [if_neg h2, bufferBit_cons, if_pos (by omega), h3]
          simp only [h, show ¬ k < 8 - s by omega, decide_true, decide_false, Bool.not_false, Bool.and_true,
            Bool.true_and, Bool.false_or, show k - (8 - s) = s + k - 8 by omega]
      · simp only [h, show ¬ s + k < 8 by omega, if_false, show s + (k - 8) = s + k - 8 by omega]

/-! ## The final mask (R109) -/

theorem finalMask_getLsbD (count k : Nat) (h : k < 8) : (finalMask count).getLsbD k = decide (k < count % 8) := by
  simp [-BitVec.getLsbD_eq_getElem, finalMask, BitVec.getLsbD_ofNat, h, Nat.one_shiftLeft, Nat.testBit_two_pow_sub_one]

@[simp] theorem maskFinal_length (count : Nat) (s : List Byte) : (maskFinal count s).length = s.length := by
  unfold maskFinal; split <;> simp

/-- Masking and keeping `n` bytes keeps exactly the bits below `count` (R109, R110). -/
theorem bufferBit_maskFinal_take (count : Nat) (hc : 0 < count) (s : List Byte) (k : Nat) :
    bufferBit ((maskFinal count s).take (packedLength count)) k = (decide (k < count) && bufferBit s k) := by
  rw [bufferBit_take]
  unfold maskFinal packedLength
  split
  · next h =>
    have h1 : (k < 8 * ((count - 1) / 8 + 1)) ↔ k < count := by omega
    simp only [h1]
  · next h =>
    by_cases hk : k / 8 = (count - 1) / 8
    · have h1 : (k < count) ↔ k % 8 < count % 8 := by omega
      have h2 : k < 8 * ((count - 1) / 8 + 1) := by omega
      simp only [bufferBit, List.getD_eq_getElem?_getD, List.getElem?_modify, hk, h1, h2]
      cases s[(count - 1) / 8]? <;>
        simp [finalMask_getLsbD _ _ (Nat.mod_lt k (by decide : 0 < 8)), Bool.and_comm]
    · have h1 : (k < 8 * ((count - 1) / 8 + 1)) ↔ k < count := by omega
      have h2 : ¬ (count - 1) / 8 = k / 8 := fun e => hk e.symm
      simp [bufferBit, List.getD_eq_getElem?_getD, h1, h2]

/-! ## The read path as a whole (R105 to R110) -/

/-- Bit `k` of the buffer is span bit `o + k` below `count`, and zero from `count` on. -/
theorem bufferBit_extractBits (o count : Nat) (hc : 0 < count) (vs : List Word)
    (hv : vs.length = totalRegisters o count) (k : Nat) :
    bufferBit (extractBits o count vs) k = (decide (k < count) && wordsBit vs (o + k)) := by
  unfold extractBits
  simp only [← hv, copyRegisters_workingBuffer]
  rw [bufferBit_maskFinal_take _ hc, bufferBit_shiftBytes _ (by unfold byteShift; omega), bufferBit_drop,
    bufferBit_layOut]
  rw [show 8 * byteOffset o + (byteShift o + k) = o + k by unfold byteOffset byteShift; omega]

/-- The buffer has `((count - 1) / 8) + 1` bytes: every index the steps form is in range (R112, R116). -/
theorem extractBits_length (o count : Nat) (ho : o < 16) (hc : 0 < count) (vs : List Word)
    (hv : vs.length = totalRegisters o count) : (extractBits o count vs).length = packedLength count := by
  unfold extractBits
  simp only [← hv, copyRegisters_workingBuffer]
  simp [hv, byteOffset, packedLength, totalRegisters]
  omega

/-! ## Coverage and field of one register (R134, R136) -/

/-- Position `p` of the `j`-th register of the span is covered (R134). -/
abbrev Covers (o count j p : Nat) : Prop := coverLo o j ≤ p ∧ p < coverHi o count j

theorem coverHi_le (o count j : Nat) : coverHi o count j ≤ 16 := by unfold coverHi; omega

/-- The coverage mask has ones exactly at the covered positions. -/
theorem coverMask_getLsbD (o count j p : Nat) :
    (coverMask o count j).getLsbD p = decide (Covers o count j p) := by
  have := coverHi_le o count j
  by_cases hp : p < 16
  · simp only [coverMask, BitVec.getLsbD_ofNat, hp, decide_true, Bool.true_and, Nat.testBit_shiftLeft,
      Nat.one_shiftLeft, Nat.testBit_two_pow_sub_one, Covers, ge_iff_le, Bool.decide_and]
    by_cases h : coverLo o j ≤ p
    · simp only [h, decide_true, Bool.true_and, decide_eq_decide]; omega
    · simp [h]
  · have h : ¬ Covers o count j p := fun h => hp (by omega)
    simp [h, BitVec.getLsbD_of_ge _ _ (show 16 ≤ p by omega)]

/-- A register is fully covered exactly when `lo = 0` and `hi = 16` (R134). -/
theorem coverMask_eq_full_iff (o count j : Nat) :
    coverMask o count j = 0xFFFF ↔ coverLo o j = 0 ∧ coverHi o count j = 16 := by
  have hh := coverHi_le o count j
  constructor
  · intro h
    have h0 : (coverMask o count j).getLsbD 0 = true := by rw [h]; rfl
    have h15 : (coverMask o count j).getLsbD 15 = true := by rw [h]; rfl
    rw [coverMask_getLsbD, decide_eq_true_eq] at h0 h15
    omega
  · intro ⟨h1, h2⟩
    rw [coverMask, h1, h2]; rfl

theorem foldl_setBits_getLsbD (g : Nat → Bool) (l : List Nat) (hl : ∀ p ∈ l, p < 16) (f : Word) (p : Nat)
    (hp : p < 16) :
    (l.foldl (fun f p => f ||| (BitVec.ofNat 16 (g p).toNat <<< p)) f).getLsbD p
      = (f.getLsbD p || (decide (p ∈ l) && g p)) := by
  induction l generalizing f with
  | nil => simp
  | cons a l ih =>
    rw [List.foldl_cons, ih (fun q hq => hl q (by simp [hq]))]
    have ha := hl a (by simp)
    have key : (BitVec.ofNat 16 (g a).toNat <<< a).getLsbD p = (decide (p = a) && g a) := by
      rw [BitVec.getLsbD_shiftLeft]
      rcases Nat.lt_trichotomy p a with h | h | h
      · simp [hp, h, show p ≠ a by omega]
      · subst h; cases g p <;> simp [hp]
      · have h1 : p - a ≠ 0 := by omega
        cases g a <;> simp [hp, show ¬ p < a by omega, show p ≠ a by omega, BitVec.getLsbD_one, h1]
    rw [BitVec.getLsbD_or, key]
    by_cases h : p = a
    · subst h; simp; cases f.getLsbD p <;> cases g p <;> simp
    · simp [h]

theorem mem_coverPositions (o count j p : Nat) : p ∈ coverPositions o count j ↔ Covers o count j p := by
  simp only [coverPositions, List.mem_range'_1, Covers]; omega

/-- The field holds the request's data at the covered positions and zero elsewhere (R136). -/
theorem coverField_getLsbD (data : List Byte) (o count j p : Nat) (hp : p < 16) :
    (coverField data o count j).getLsbD p
      = (decide (Covers o count j p) && bufferBit data (16 * j + p - o)) := by
  have hl : ∀ q ∈ coverPositions o count j, q < 16 := fun q hq => by
    have := (mem_coverPositions o count j q).1 hq; have := coverHi_le o count j; omega
  rw [coverField, foldl_setBits_getLsbD (fun p => bufferBit data (16 * j + p - o)) _ hl _ _ hp]
  simp [-BitVec.getLsbD_eq_getElem, mem_coverPositions]

/-- The value a register of the span is set to: the field where the mask is full, else the merge (R135). -/
def newValue (data : List Byte) (o count j : Nat) (old : Word) : Word :=
  if coverMask o count j = 0xFFFF then coverField data o count j
  else merge old (coverMask o count j) (coverField data o count j)

/-- Covered positions take the request's data, the others keep the old value (R135). -/
theorem newValue_getLsbD (data : List Byte) (o count j : Nat) (old : Word) (p : Nat) (hp : p < 16) :
    (newValue data o count j old).getLsbD p =
      if Covers o count j p then bufferBit data (16 * j + p - o) else old.getLsbD p := by
  unfold newValue
  split
  · next h =>
    have hc : Covers o count j p := by
      have := (coverMask_eq_full_iff o count j).1 h; unfold Covers; omega
    rw [coverField_getLsbD _ _ _ _ _ hp, if_pos hc, decide_eq_true hc, Bool.true_and]
  · rw [merge, BitVec.getLsbD_or, BitVec.getLsbD_and, BitVec.getLsbD_not, coverMask_getLsbD,
      coverField_getLsbD _ _ _ _ _ hp, decide_eq_true hp, Bool.true_and]
    by_cases h : Covers o count j p
    · rw [if_pos h, decide_eq_true h]; simp only [Bool.not_true, Bool.and_false, Bool.false_or, Bool.true_and]
    · rw [if_neg h, decide_eq_false h]; simp only [Bool.not_false, Bool.and_true, Bool.false_and, Bool.or_false]

/-! ## The span (R104, R133) -/

theorem span_getElem? (ct : List Nat) (start count j : Nat)
    (hj : j < totalRegisters (bitOffset start) count) :
    (span ct start count)[j]? = ct[start / 16 + j]? := by
  simp [span, firstRegister, hj]

theorem span_length (ct : List Nat) (start count : Nat) (hc : 0 < count) (h : start + count ≤ 16 * ct.length) :
    (span ct start count).length = totalRegisters (bitOffset start) count := by
  simp [span, firstRegister, totalRegisters, bitOffset]; omega

theorem mem_of_mem_span {ct : List Nat} {start count i : Nat} (h : i ∈ span ct start count) : i ∈ ct :=
  List.mem_of_mem_drop (List.mem_of_mem_take h)

end Sys2Proof.Machine
end

