-- ==== Sys2Proof/Laws/State.lean ====
section
/-! SUPPORT. One lemma per field per update of State. -/

namespace Sys2Proof.Machine

open Sys2Proof

variable (s : State) (i : Instr) (r : Response) (e : Status) (p : Port)

@[simp] theorem State.emit_cfg : (s.emit i r p).cfg = s.cfg := rfl
@[simp] theorem State.emit_bank : (s.emit i r p).bank = p.bank := rfl
@[simp] theorem State.emit_pending : (s.emit i r p).pending = s.pending := rfl
@[simp] theorem State.emit_log : (s.emit i r p).log = s.log ++ [.served i r p.trace] := rfl

@[simp] theorem State.raise_cfg : (s.raise i e).cfg = s.cfg := rfl
@[simp] theorem State.raise_bank : (s.raise i e).bank = s.bank := rfl
@[simp] theorem State.raise_pending : (s.raise i e).pending = s.pending := rfl
@[simp] theorem State.raise_log :
    (s.raise i e).log = s.log ++ [.served i { status := e, length := 0, buffer := [] } []] := rfl

@[simp] theorem State.port_bank : s.port.bank = s.bank := rfl
@[simp] theorem State.port_trace : s.port.trace = [] := rfl

@[simp] theorem State.constructed_cfg (c : Config) (b : List Word) : (State.constructed c b).cfg = c := rfl
@[simp] theorem State.constructed_bank (c : Config) (b : List Word) : (State.constructed c b).bank = b := rfl
@[simp] theorem State.constructed_pending (c : Config) (b : List Word) : (State.constructed c b).pending = [] := rfl
@[simp] theorem State.constructed_log (c : Config) (b : List Word) : (State.constructed c b).log = [] := rfl

@[simp] theorem State.withFetchWord_cfg (n w : Nat) : (s.withFetchWord n w).cfg = { s.cfg with aw := tableAw } := rfl
@[simp] theorem State.withFetchWord_bank (n w : Nat) : (s.withFetchWord n w).bank = s.bank := rfl
@[simp] theorem State.withFetchWord_pending (n w : Nat) :
    (s.withFetchWord n w).pending = .command w (tableData w) :: s.pending := rfl
@[simp] theorem State.withFetchWord_log (n w : Nat) : (s.withFetchWord n w).log = s.log := rfl

/-- Being operational depends on the configuration and the size of the bank alone. -/
theorem State.operational_congr {s t : State} (hc : t.cfg = s.cfg) (hb : t.bank.length = s.bank.length) :
    t.operational = s.operational := by
  simp [State.operational, hc, hb]

/-- What setup has checked, as facts about the table (R7, R193). -/
theorem State.operational_iff :
    s.operational = true ↔
      (s.cfg.ct.length ≤ s.bank.length ∧ ∀ j ∈ s.cfg.ct, j < s.bank.length) ∧ 1 ≤ s.cfg.aw := by
  simp [State.operational, accepts]

end Sys2Proof.Machine
end

