-- ==== Sys2Proof/Laws/Ops.lean ====
section
/-! SUPPORT. What each shared operation does, once. -/

namespace Sys2Proof.Machine

open Sys2Proof

variable {p p' : Port} {i : Nat} {v : Word}

/-- A get of an existing register answers its value and records the event. -/
theorem Port.get_eq (h : i < p.bank.length) :
    p.get i = .ok (p.bank[i], { p with trace := p.trace ++ [.get i] }) := by
  simp [Port.get, List.getElem?_eq_getElem h]

/-- Everything a get that answers can do. -/
theorem Port.get_ok (h : p.get i = .ok (v, p')) :
    p.bank[i]? = some v ∧ p' = { p with trace := p.trace ++ [.get i] } := by
  unfold Port.get at h
  split at h
  · next w hw => cases h; exact ⟨hw, rfl⟩
  · cases h

/-- A set of an existing register stores the value and records the event. -/
theorem Port.set_eq (h : i < p.bank.length) :
    p.set i v = .ok { bank := p.bank.set i v, trace := p.trace ++ [.set i v] } := by
  simp [Port.set, h]

/-- Everything a set that answers can do. -/
theorem Port.set_ok (h : p.set i v = .ok p') :
    i < p.bank.length ∧ p' = { bank := p.bank.set i v, trace := p.trace ++ [.set i v] } := by
  unfold Port.set at h
  split at h
  · next hi => cases h; exact ⟨hi, rfl⟩
  · cases h

/-- The bank keeps its size under every access: its form is one value per register, `N` of them (R20, R195). -/
theorem Port.set_length (h : p.set i v = .ok p') : p'.bank.length = p.bank.length := by
  obtain ⟨-, rfl⟩ := Port.set_ok h; simp

theorem Port.get_length (h : p.get i = .ok (v, p')) : p'.bank.length = p.bank.length := by
  obtain ⟨-, rfl⟩ := Port.get_ok h; rfl

/-- Getting a list of existing registers answers their values in order, records one get each and leaves the bank. -/
theorem Port.getAll_eq (is : List Nat) (p : Port) (h : ∀ i ∈ is, i < p.bank.length) :
    Port.getAll is p =
      .ok (is.map (p.bank.getD · 0), { p with trace := p.trace ++ is.map Access.get }) := by
  induction is generalizing p with
  | nil => simp [Port.getAll]
  | cons i is ih =>
    have hi : i < p.bank.length := h i (by simp)
    have := ih { p with trace := p.trace ++ [.get i] } (fun j hj => h j (by simp [hj]))
    simp [Port.getAll, Port.get_eq hi, this, List.getD_eq_getElem?_getD, List.getElem?_eq_getElem hi]

/-- Everything getting a list of registers can do when it answers: no register changes. -/
theorem Port.getAll_ok {is : List Nat} {vs : List Word} (h : Port.getAll is p = .ok (vs, p')) :
    is.map (p.bank[·]?) = vs.map some ∧ p' = { p with trace := p.trace ++ is.map Access.get } := by
  induction is generalizing p vs with
  | nil => simp only [Port.getAll, Except.ok.injEq, Prod.mk.injEq] at h; simp [← h.1, ← h.2]
  | cons i is ih =>
    simp only [Port.getAll] at h
    split at h
    · cases h
    · next v q hv =>
      split at h
      · cases h
      · next ws q' hw =>
        simp only [Except.ok.injEq, Prod.mk.injEq] at h
        obtain ⟨rfl, rfl⟩ := h
        obtain ⟨h1, rfl⟩ := Port.get_ok hv
        obtain ⟨h2, rfl⟩ := ih hw
        simp [h1, h2]

/-- Everything completing an operation can do when it answers a next state. -/
theorem State.complete_next {s t : State} {i : Instr} {e : Except Fault (Response × Port)}
    (h : s.complete i e = .next t) : ∃ r p, e = .ok (r, p) ∧ t = s.emit i r p := by
  unfold State.complete at h
  split at h
  · next r p => cases h; exact ⟨r, p, rfl, rfl⟩
  · cases h

/-- Everything the environment's set can do when it answers a next state. -/
theorem State.regSet_next {s t : State} {i : Nat} {v : Word} (h : s.regSet i v = .next t) :
    i < s.bank.length ∧ t = { s with bank := s.bank.set i v, log := s.log ++ [.regSet i v] } := by
  unfold State.regSet at h
  split at h
  · next p hp =>
    obtain ⟨hi, rfl⟩ := Port.set_ok hp
    cases h
    exact ⟨hi, rfl⟩
  · cases h

/-- Everything the environment's get can do when it answers a next state. -/
theorem State.regGet_next {s t : State} {i : Nat} (h : s.regGet i = .next t) :
    ∃ v, s.bank[i]? = some v ∧ t = { s with log := s.log ++ [.regGet i v] } := by
  unfold State.regGet at h
  split at h
  · next v p hp =>
    obtain ⟨hi, rfl⟩ := Port.get_ok hp
    cases h
    exact ⟨v, hi, rfl⟩
  · cases h

/-- Everything setup can do when it accepts. -/
theorem setUp_ok {cfg : Config} {bank : List Word} {s : State} (h : setUp cfg bank = .ok s) :
    s = State.constructed cfg bank ∧ s.operational = true := by
  unfold setUp at h
  split at h
  · next ho => cases h; exact ⟨rfl, ho⟩
  · cases h

/-- What fetching takes from the environment's list. -/
theorem State.fetch_cons {s : State} {a : EnvAction} {rest : List EnvAction} (h : s.pending = a :: rest) :
    s.fetch = some (a, { s with pending := rest }) := by
  simp [State.fetch, h]

theorem State.fetch_nil {s : State} (h : s.pending = []) : s.fetch = none := by
  simp [State.fetch, h]

/-- Everything fetching can do when it gives an action. -/
theorem State.fetch_some {s s' : State} {a : EnvAction} (h : s.fetch = some (a, s')) :
    ∃ rest, s.pending = a :: rest ∧ s' = { s with pending := rest } := by
  unfold State.fetch at h
  split at h
  · cases h
  · next b rest hp => cases h; exact ⟨rest, hp, rfl⟩

end Sys2Proof.Machine
end

