-- ==== Sys2Proof/Laws/PerInstr.lean ====
section
/-! SUPPORT. Statements about every instruction as an encoding, one lemma per constructor. -/

namespace Sys2Proof.Laws

open Sys2Proof

/-- The word of a well-formed instruction fits the command format (30_encoding.md R77). -/
def EncodeFits.Statement (i : Instr) : Prop :=
  ∀ aw : Nat, i.wellFormed aw = true → (encode aw i).1 < 2 ^ cmdWidth aw

theorem EncodeFits.readBits (start count : Nat) : EncodeFits.Statement (.readBits start count) := by
  intro aw h
  simp only [Instr.wellFormed, Bool.and_eq_true, decide_eq_true_eq] at h
  exact word_lt aw 0 start count (by omega) h.1 h.2

theorem EncodeFits.writeBits (start count : Nat) (data : List Byte) :
    EncodeFits.Statement (.writeBits start count data) := by
  intro aw h
  simp only [Instr.wellFormed, Bool.and_eq_true, decide_eq_true_eq] at h
  exact word_lt aw 1 start count (by omega) h.1 h.2

end Sys2Proof.Laws
end

