-- ==== Sys2Proof/Laws/ReadPath.lean ====
section
/-! SUPPORT. What `READ_BITS` does, once. -/

namespace Sys2Proof.Machine

open Sys2Proof

/-- Every entry of a span of an operational block names an existing register (R45, R73). -/
theorem State.span_lt {s : State} (h : s.operational = true) {start count i : Nat}
    (hi : i ∈ span s.cfg.ct start count) : i < s.bank.length :=
  ((State.operational_iff s).1 h).1.2 i (mem_of_mem_span hi)

/-- The checks of a read pass exactly for an in-range request of at least one coil (R101). -/
theorem readStatus_eq_ok_iff {m start count : Nat} :
    readStatus m start count = .ok ↔ 1 ≤ count ∧ start + count ≤ 16 * m := by
  unfold readStatus exceedsTable
  split
  · next h => simp [h]
  · next h =>
    split
    · next hr => simp at hr; simp; omega
    · next hr => simp at hr; simp; omega

/-- `READ_BITS` on an in-range request completes: the response holds the extracted bits of the span, the trace its gets,
and nothing else changes. -/
theorem execReadBits_eq {s : State} {start count : Nat} (h : s.operational = true) (hc : 1 ≤ count)
    (hr : start + count ≤ 16 * s.cfg.m) :
    execReadBits start count s =
      .next { s with
        log := s.log ++ [.served (.readBits start count)
          (Response.success (extractBits (bitOffset start) count ((span s.cfg.ct start count).map (s.bank.getD · 0)))
            (packedLength count))
          ((span s.cfg.ct start count).map Access.get)] } := by
  simp only [execReadBits, h, if_true, readStatus_eq_ok_iff.2 ⟨hc, hr⟩, readBits]
  rw [Port.getAll_eq _ _ fun i hi => State.span_lt h hi]
  simp [State.complete, State.emit]

/-- `READ_BITS` on a request that fails a check raises, and nothing else changes. -/
theorem execReadBits_raise {s : State} {start count : Nat} (h : s.operational = true)
    (he : readStatus s.cfg.m start count ≠ .ok) :
    execReadBits start count s = .next (s.raise (.readBits start count) (readStatus s.cfg.m start count)) := by
  simp only [execReadBits, h, if_true]

/-- Everything `READ_BITS` can do when it answers a next state. -/
theorem execReadBits_next {s t : State} {start count : Nat} (h : execReadBits start count s = .next t) :
    s.operational = true ∧
      ((readStatus s.cfg.m start count ≠ .ok ∧
          t = s.raise (.readBits start count) (readStatus s.cfg.m start count)) ∨
        (1 ≤ count ∧ start + count ≤ 16 * s.cfg.m ∧
          t = { s with
            log := s.log ++ [.served (.readBits start count)
              (Response.success
                (extractBits (bitOffset start) count ((span s.cfg.ct start count).map (s.bank.getD · 0)))
                (packedLength count))
              ((span s.cfg.ct start count).map Access.get)] })) := by
  by_cases ho : s.operational = true
  · refine ⟨ho, ?_⟩
    by_cases he : readStatus s.cfg.m start count = .ok
    · right
      obtain ⟨hc, hr⟩ := readStatus_eq_ok_iff.1 he
      rw [execReadBits_eq ho hc hr] at h
      cases h
      exact ⟨hc, hr, rfl⟩
    · left
      rw [execReadBits_raise ho he] at h
      cases h
      exact ⟨he, rfl⟩
  · simp [execReadBits, ho] at h

end Sys2Proof.Machine
end

