-- ==== Sys2Proof/Laws/WritePath.lean ====
section
/-! SUPPORT. What `WRITE_BITS` does, once. -/

namespace Sys2Proof.Machine

open Sys2Proof

/-- The bank after the registers `is` of a span are handled, from the `j`-th on (R135). -/
def writtenBank (data : List Byte) (o count : Nat) : Nat → List Nat → List Word → List Word
  | _, [], b => b
  | j, i :: is, b => writtenBank data o count (j + 1) is (b.set i (newValue data o count j (b.getD i 0)))

/-- The accesses made while the registers `is` of a span are handled, from the `j`-th on (R140). -/
def writtenTrace (data : List Byte) (o count : Nat) : Nat → List Nat → List Word → List Access
  | _, [], _ => []
  | j, i :: is, b =>
    let v := newValue data o count j (b.getD i 0)
    (if coverMask o count j = 0xFFFF then [.set i v] else [.get i, .set i v]) ++
      writtenTrace data o count (j + 1) is (b.set i v)

theorem writeRegister_eq {p : Port} {data : List Byte} {o count j i : Nat} (h : i < p.bank.length) :
    writeRegister data o count j i p =
      .ok { bank := p.bank.set i (newValue data o count j (p.bank.getD i 0)),
            trace := p.trace ++
              if coverMask o count j = 0xFFFF then [.set i (newValue data o count j (p.bank.getD i 0))]
              else [.get i, .set i (newValue data o count j (p.bank.getD i 0))] } := by
  unfold writeRegister newValue
  split
  · rw [Port.set_eq h]
  · rw [Port.get_eq h]
    simp only [List.getD_eq_getElem?_getD, List.getElem?_eq_getElem h, Option.getD_some]
    rw [Port.set_eq (by exact h)]
    simp

theorem writeRegisters_eq (data : List Byte) (o count j : Nat) (is : List Nat) (p : Port)
    (h : ∀ i ∈ is, i < p.bank.length) :
    writeRegisters data o count j is p =
      .ok { bank := writtenBank data o count j is p.bank,
            trace := p.trace ++ writtenTrace data o count j is p.bank } := by
  induction is generalizing j p with
  | nil => simp [writeRegisters, writtenBank, writtenTrace]
  | cons i is ih =>
    rw [writeRegisters, writeRegister_eq (h i (by simp))]
    simp only
    rw [ih _ _ (fun k hk => by simpa using h k (by simp [hk]))]
    simp [writtenBank, writtenTrace]

@[simp] theorem writtenBank_length (data : List Byte) (o count j : Nat) (is : List Nat) (b : List Word) :
    (writtenBank data o count j is b).length = b.length := by
  induction is generalizing j b with
  | nil => rfl
  | cons i is ih => simp [writtenBank, ih]

/-- The sets of the trace, applied in order, give the bank (R52). -/
theorem writtenTrace_apply (data : List Byte) (o count j : Nat) (is : List Nat) (b : List Word) :
    (writtenTrace data o count j is b).foldl Access.apply b = writtenBank data o count j is b := by
  induction is generalizing j b with
  | nil => rfl
  | cons i is ih =>
    simp only [writtenTrace, writtenBank, List.foldl_append]
    split <;> simp [Access.apply, ih]

/-- Position `p` of element `i` is covered by none of the registers `is`, the `j`-th of the span first. -/
def Uncovered (o count j : Nat) (is : List Nat) (i p : Nat) : Prop :=
  ∀ n, is[n]? = some i → ¬ Covers o count (j + n) p

theorem Uncovered.tail {o count j a : Nat} {is : List Nat} {i p : Nat} (h : Uncovered o count j (a :: is) i p) :
    Uncovered o count (j + 1) is i p := fun n hn => by
  have := h (n + 1) (by simpa using hn)
  rwa [show j + 1 + n = j + (n + 1) by omega]

/-- A position no register of the span covers keeps its value (R139). -/
theorem writtenBank_uncovered (data : List Byte) (o count j : Nat) (is : List Nat) (b : List Word) (i p : Nat)
    (hp : p < 16) (h : Uncovered o count j is i p) :
    ((writtenBank data o count j is b).getD i 0).getLsbD p = (b.getD i 0).getLsbD p := by
  induction is generalizing j b with
  | nil => rfl
  | cons a is ih =>
    rw [writtenBank, ih _ _ h.tail]
    by_cases ha : a = i
    · subst ha
      have hc : ¬ Covers o count j p := by simpa using h 0 (by simp)
      by_cases hb : a < b.length
      · simp only [List.getD_eq_getElem?_getD, List.getElem?_set_self hb, Option.getD_some]
        rw [newValue_getLsbD _ _ _ _ _ _ hp, if_neg hc]
      · rw [List.set_eq_of_length_le (by omega)]
    · simp [-BitVec.getLsbD_eq_getElem, List.getD_eq_getElem?_getD, List.getElem?_set_ne ha]

/-- A covered position takes the data of the last register of the span that covers it (R136, R141). -/
theorem writtenBank_covered (data : List Byte) (o count j : Nat) (is : List Nat) (b : List Word) (i p n : Nat)
    (hp : p < 16) (hb : i < b.length) (hn : is[n]? = some i) (hc : Covers o count (j + n) p)
    (hl : ∀ n', n < n' → is[n']? = some i → ¬ Covers o count (j + n') p) :
    ((writtenBank data o count j is b).getD i 0).getLsbD p = bufferBit data (16 * (j + n) + p - o) := by
  induction is generalizing j b n with
  | nil => simp at hn
  | cons a is ih =>
    rw [writtenBank]
    cases n with
    | zero =>
      have ha : a = i := by simpa using hn
      subst ha
      rw [writtenBank_uncovered _ _ _ _ _ _ _ _ hp]
      · simp only [List.getD_eq_getElem?_getD, List.getElem?_set_self hb, Option.getD_some]
        rw [newValue_getLsbD _ _ _ _ _ _ hp, if_pos (by simpa using hc)]; rfl
      · intro n' hn'
        have := hl (n' + 1) (by omega) (by simpa using hn')
        rwa [show j + 1 + n' = j + (n' + 1) by omega]
    | succ n =>
      rw [ih (j + 1) _ n (by simpa using hb) (by simpa using hn) (by rwa [show j + 1 + n = j + (n + 1) by omega])
        (fun n' hlt hn' => by
          have := hl (n' + 1) (by omega) (by simpa using hn')
          rwa [show j + 1 + n' = j + (n' + 1) by omega])]
      rw [show j + 1 + n = j + (n + 1) by omega]

/-- The accesses of a write are on the registers of its span (R140). -/
theorem mem_writtenTrace {data : List Byte} {o count j : Nat} {is : List Nat} {b : List Word} {a : Access}
    (h : a ∈ writtenTrace data o count j is b) : a.register ∈ is := by
  induction is generalizing j b with
  | nil => simp [writtenTrace] at h
  | cons i is ih =>
    simp only [writtenTrace, List.mem_append] at h
    rcases h with h | h
    · split at h <;> simp at h
      · subst h; simp [Access.register]
      · rcases h with rfl | rfl <;> simp [Access.register]
    · exact List.mem_cons_of_mem _ (ih h)

/-- A register outside the span keeps its value (R139). -/
theorem writtenBank_getElem?_of_notMem {data : List Byte} {o count j : Nat} {is : List Nat} {b : List Word} {k : Nat}
    (h : k ∉ is) : (writtenBank data o count j is b)[k]? = b[k]? := by
  induction is generalizing j b with
  | nil => rfl
  | cons i is ih =>
    simp at h
    rw [writtenBank, ih h.2, List.getElem?_set_ne (Ne.symm h.1)]

/-- The checks of a write pass exactly for an in-range request of at least one coil with data of the right length
(R132). -/
theorem writeStatus_eq_ok_iff {m start count : Nat} {data : List Byte} :
    writeStatus m start count data = .ok ↔
      1 ≤ count ∧ data.length = packedLength count ∧ start + count ≤ 16 * m := by
  unfold writeStatus exceedsTable
  split
  · next h => simp [h]
  · next h =>
    split
    · next hd => simp [hd]
    · next hd =>
      simp at hd
      split
      · next hr => simp at hr; simp [hd]; omega
      · next hr => simp at hr; simp [hd]; omega

/-- `WRITE_BITS` on an acceptable request completes. -/
theorem execWriteBits_eq {s : State} {start count : Nat} {data : List Byte} (h : s.operational = true)
    (hw : s.cfg.hasWrite = true) (hc : 1 ≤ count) (hd : data.length = packedLength count)
    (hr : start + count ≤ 16 * s.cfg.m) :
    execWriteBits start count data s =
      .next { s with
        bank := writtenBank data (bitOffset start) count 0 (span s.cfg.ct start count) s.bank
        log := s.log ++ [.served (.writeBits start count data) (Response.success [] 0)
          (writtenTrace data (bitOffset start) count 0 (span s.cfg.ct start count) s.bank)] } := by
  simp only [execWriteBits, h, hw, if_true, writeStatus_eq_ok_iff.2 ⟨hc, hd, hr⟩, writeBits]
  rw [writeRegisters_eq _ _ _ _ _ _ fun i hi => State.span_lt h hi]
  simp [State.complete, State.emit]

/-- `WRITE_BITS` on a request that fails a check raises, and nothing else changes. -/
theorem execWriteBits_raise {s : State} {start count : Nat} {data : List Byte} (h : s.operational = true)
    (hw : s.cfg.hasWrite = true) (he : writeStatus s.cfg.m start count data ≠ .ok) :
    execWriteBits start count data s =
      .next (s.raise (.writeBits start count data) (writeStatus s.cfg.m start count data)) := by
  simp only [execWriteBits, h, hw, if_true]

/-- Everything `WRITE_BITS` can do when it answers a next state. -/
theorem execWriteBits_next {s t : State} {start count : Nat} {data : List Byte}
    (h : execWriteBits start count data s = .next t) :
    s.operational = true ∧ s.cfg.hasWrite = true ∧
      ((writeStatus s.cfg.m start count data ≠ .ok ∧
          t = s.raise (.writeBits start count data) (writeStatus s.cfg.m start count data)) ∨
        (1 ≤ count ∧ data.length = packedLength count ∧ start + count ≤ 16 * s.cfg.m ∧
          t = { s with
            bank := writtenBank data (bitOffset start) count 0 (span s.cfg.ct start count) s.bank
            log := s.log ++ [.served (.writeBits start count data) (Response.success [] 0)
              (writtenTrace data (bitOffset start) count 0 (span s.cfg.ct start count) s.bank)] })) := by
  by_cases ho : s.operational = true
  · by_cases hw : s.cfg.hasWrite = true
    · refine ⟨ho, hw, ?_⟩
      by_cases he : writeStatus s.cfg.m start count data = .ok
      · right
        obtain ⟨hc, hd, hr⟩ := writeStatus_eq_ok_iff.1 he
        rw [execWriteBits_eq ho hw hc hd hr] at h
        cases h
        exact ⟨hc, hd, hr, rfl⟩
      · left
        rw [execWriteBits_raise ho hw he] at h
        cases h
        exact ⟨he, rfl⟩
    · simp [execWriteBits, ho, hw] at h
  · simp [execWriteBits, ho] at h

end Sys2Proof.Machine
end

