-- ==== Sys2Proof/Laws/Step.lean ====
section
/-! SUPPORT. What one step can do, once. -/

namespace Sys2Proof.Machine

open Sys2Proof

/-- Everything any instruction can do when it answers a next state: it records one event of its own and keeps the
configuration, the environment's list and the size of the bank. -/
theorem exec_next {s t : State} {i : Instr} (h : exec i s = .next t) :
    s.operational = true ∧ t.cfg = s.cfg ∧ t.pending = s.pending ∧ t.bank.length = s.bank.length ∧
      ∃ r tr, t.log = s.log ++ [.served i r tr] := by
  cases i with
  | readBits start count =>
    obtain ⟨ho, ⟨-, rfl⟩ | ⟨-, -, rfl⟩⟩ := execReadBits_next h
    · exact ⟨ho, rfl, rfl, rfl, _, _, rfl⟩
    · exact ⟨ho, rfl, rfl, rfl, _, _, rfl⟩
  | writeBits start count data =>
    obtain ⟨ho, -, ⟨-, rfl⟩ | ⟨-, -, -, rfl⟩⟩ := execWriteBits_next h
    · exact ⟨ho, rfl, rfl, rfl, _, _, rfl⟩
    · exact ⟨ho, rfl, rfl, by simp, _, _, rfl⟩

/-- Everything a step can do when it answers a next state: wait, run the decoded command, or perform the environment's
access. -/
theorem step_next {s t : State} (h : step s = .next t) :
    (s.pending = [] ∧ t = s) ∨
    (∃ w data rest i, s.pending = .command w data :: rest ∧ decode s.cfg.aw w data = .ok i ∧
      exec i { s with pending := rest } = .next t) ∨
    (∃ i v rest, s.pending = .regSet i v :: rest ∧ i < s.bank.length ∧
      t = { cfg := s.cfg, bank := s.bank.set i v, pending := rest, log := s.log ++ [.regSet i v] }) ∨
    (∃ i v rest, s.pending = .regGet i :: rest ∧ s.bank[i]? = some v ∧
      t = { cfg := s.cfg, bank := s.bank, pending := rest, log := s.log ++ [.regGet i v] }) := by
  unfold step at h
  split at h
  · next hf =>
    cases h
    refine .inl ⟨?_, rfl⟩
    unfold State.fetch at hf
    split at hf
    · assumption
    · cases hf
  · next w d s' hf =>
    obtain ⟨rest, hp, rfl⟩ := State.fetch_some hf
    split at h
    · next i hi => exact .inr (.inl ⟨w, d, rest, i, hp, hi, h⟩)
    · cases h
  · next i v s' hf =>
    obtain ⟨rest, hp, rfl⟩ := State.fetch_some hf
    obtain ⟨hi, rfl⟩ := State.regSet_next h
    exact .inr (.inr (.inl ⟨i, v, rest, hp, hi, rfl⟩))
  · next i s' hf =>
    obtain ⟨rest, hp, rfl⟩ := State.fetch_some hf
    obtain ⟨v, hi, rfl⟩ := State.regGet_next h
    exact .inr (.inr (.inr ⟨i, v, rest, hp, hi, rfl⟩))

end Sys2Proof.Machine
end

