-- ==== Sys2Proof/Laws/Safety.lean ====
section
/-! SUPPORT. Small facts about the terms the statements use. -/

namespace Sys2Proof.Machine

open Sys2Proof

/-- The bits of a byte sequence are the bits of the number it is (R10, R111). -/
theorem littleEndianBytes_testBit (b : List Byte) (k : Nat) : (littleEndianBytes b).testBit k = bufferBit b k := by
  induction b generalizing k with
  | nil => simp [littleEndianBytes]
  | cons x xs ih =>
    rw [littleEndianBytes, bufferBit_cons, Nat.add_comm, show 256 = 2 ^ 8 by rfl,
      Nat.testBit_two_pow_mul_add _ x.isLt, ih]
    rfl

/-- The bits of a register sequence are the bits of the number it is (R111, R137). -/
theorem littleEndianWords_testBit (b : List Word) (k : Nat) : (littleEndianWords b).testBit k = wordsBit b k := by
  induction b generalizing k with
  | nil => simp [littleEndianWords]
  | cons x xs ih =>
    rw [littleEndianWords, wordsBit_cons, Nat.add_comm, show 65536 = 2 ^ 16 by rfl,
      Nat.testBit_two_pow_mul_add _ x.isLt, ih]
    rfl

/-- Two byte sequences of one length with the same bits are the same. -/
theorem eq_of_bufferBit_eq {b b' : List Byte} (hl : b'.length = b.length)
    (h : ∀ k, bufferBit b' k = bufferBit b k) : b' = b := by
  apply List.ext_getElem hl
  intro i h1 h2
  apply BitVec.eq_of_getLsbD_eq
  intro p hp
  have := h (8 * i + p)
  simp only [bufferBit, show (8 * i + p) / 8 = i by omega, show (8 * i + p) % 8 = p by omega] at this
  simpa [-BitVec.getLsbD_eq_getElem, List.getD_eq_getElem?_getD, List.getElem?_eq_getElem h1,
    List.getElem?_eq_getElem h2] using this

/-- The entries of a span are those from `fr` to `fr + T - 1`. -/
theorem inSpan_iff {start count r : Nat} (hc : 1 ≤ count) :
    InSpan start count r ↔
      start / 16 ≤ r ∧ r < start / 16 + totalRegisters (bitOffset start) count := by
  unfold totalRegisters bitOffset
  constructor
  · rintro ⟨b, h1, h2, rfl⟩; omega
  · intro ⟨h1, h2⟩
    by_cases h : r = start / 16
    · exact ⟨start, by omega, by omega, h.symm⟩
    · exact ⟨16 * r, by omega, by omega, by omega⟩

/-- A table without repeats has distinct spans. -/
theorem DistinctSpan.of_nodup {ct : List Nat} (h : ct.Nodup) (start count : Nat) : DistinctSpan ct start count := by
  intro r r' i _ _ h1 h2
  obtain ⟨l1, e1⟩ := List.getElem?_eq_some_iff.1 h1
  obtain ⟨l2, e2⟩ := List.getElem?_eq_some_iff.1 h2
  exact (List.Nodup.getElem_inj_iff h).1 (e1.trans e2.symm)

/-- On an operational block a valid bit address names a bit of an existing register (R45). -/
theorem coil_of_lt {s : State} (ho : s.operational = true) {b : Nat} (h : b < 16 * s.cfg.m) :
    ∃ i v, s.cfg.ct[b / 16]? = some i ∧ s.bank[i]? = some v ∧
      coil s.cfg.ct s.bank b = some (v.getLsbD (b % 16)) := by
  have hr : b / 16 < s.cfg.ct.length := by unfold Config.m at h; omega
  have hi := ((State.operational_iff s).1 ho).1.2 _ (List.getElem_mem hr)
  refine ⟨s.cfg.ct[b / 16], s.bank[s.cfg.ct[b / 16]], List.getElem?_eq_getElem hr, List.getElem?_eq_getElem hi, ?_⟩
  simp [coil, coilRegister, List.getElem?_eq_getElem hr, List.getElem?_eq_getElem hi]

/-- A requested coil names a covered position of a register of the span (R136). -/
theorem covers_of_names {ct : List Nat} {start count k i p : Nat} (hk : k < count) (h : Names ct start k i p) :
    ∃ j, (span ct start count)[j]? = some i ∧ Covers (bitOffset start) count j p ∧
      16 * j + p = bitOffset start + k := by
  obtain ⟨h1, h2⟩ := h
  have hj : (bitOffset start + k) / 16 < totalRegisters (bitOffset start) count := by unfold totalRegisters; omega
  have e1 : start / 16 + (bitOffset start + k) / 16 = (start + k) / 16 := by unfold bitOffset; omega
  refine ⟨(bitOffset start + k) / 16, ?_, ?_, ?_⟩
  · rw [span_getElem? _ _ _ _ hj, e1, h1]
  · unfold Covers coverLo coverHi; unfold bitOffset at *; split <;> omega
  · unfold bitOffset at *; omega

/-- A covered position of a register of the span is named by a requested coil (R136). -/
theorem names_of_covers {ct : List Nat} {start count j i p : Nat} (h : (span ct start count)[j]? = some i)
    (hc : Covers (bitOffset start) count j p) :
    ∃ k, k < count ∧ Names ct start k i p ∧ 16 * j + p = bitOffset start + k := by
  have hj : j < totalRegisters (bitOffset start) count := by
    have := (List.getElem?_eq_some_iff.1 h).1
    have : (span ct start count).length ≤ totalRegisters (bitOffset start) count := by simp [span]
    omega
  rw [span_getElem? _ _ _ _ hj] at h
  have hp : p < 16 := by have := coverHi_le (bitOffset start) count j; unfold Covers at hc; omega
  have h1 : bitOffset start ≤ 16 * j + p := by
    unfold Covers coverLo at hc; unfold bitOffset at *; split at hc <;> omega
  have h2 : 16 * j + p < bitOffset start + count := by unfold Covers coverHi at hc; omega
  have hd : (start + (16 * j + p - bitOffset start)) / 16 = start / 16 + j := by unfold bitOffset at *; omega
  refine ⟨16 * j + p - bitOffset start, by omega, ⟨by rw [hd]; exact h, by unfold bitOffset at *; omega⟩, by omega⟩

end Sys2Proof.Machine
end

