-- ==== Sys2Proof/Machine/Assembly.lean ====
section
/-! DEFINITION. The written form of a program line (30_encoding.md R83): notation only, nothing in the machine reads it. -/

namespace Sys2Proof.Machine

open Sys2Proof

/-- One hexadecimal digit, in capitals as the spec's examples write it. -/
def hexDigit (n : Nat) : String :=
  match n % 16 with
  | 0 => "0" | 1 => "1" | 2 => "2" | 3 => "3" | 4 => "4" | 5 => "5" | 6 => "6" | 7 => "7"
  | 8 => "8" | 9 => "9" | 10 => "A" | 11 => "B" | 12 => "C" | 13 => "D" | 14 => "E" | _ => "F"

/-- A byte in `0x` hexadecimal (R83). -/
def hexByte (b : Byte) : String := "0x" ++ hexDigit (b.toNat / 16) ++ hexDigit b.toNat

/-- A register value in `0x` hexadecimal, as `REG_SET` lines write it (R83). -/
def hexWord (v : Word) : String := hexByte (v.extractLsb' 8 8) ++ hexDigit (v.toNat / 16) ++ hexDigit v.toNat

/-- The data operand, `[<b0>, <b1>, ...]` (R83). -/
def dataText (data : List Byte) : String := "[" ++ ", ".intercalate (data.map hexByte) ++ "]"

/-- A command line (R83), numbers in decimal. -/
def instrText : Instr → String
  | .readBits start count => "READ_BITS " ++ toString start ++ ", " ++ toString count
  | .writeBits start count data =>
    "WRITE_BITS " ++ toString start ++ ", " ++ toString count ++ ", " ++ dataText data

/-- A line for an action of the environment on the register-oriented path (R83); a command word has no line but that of
the instruction it decodes to. -/
def regSetText (i : Nat) (v : Word) : String := "REG_SET " ++ toString i ++ ", " ++ hexWord v

/-- As `regSetText`, for `REG_GET` (R83). -/
def regGetText (i : Nat) : String := "REG_GET " ++ toString i

end Sys2Proof.Machine
end

