-- ==== Sys2Proof/Tests/Slice0.lean ====
section
/-! SUPPORT. The model's own tests, with expected results from 95_test_vectors.md and the rules' worked examples, and for
every statement with hypotheses a witness that they can be met, at the boundaries of their ranges. -/

namespace Sys2Proof.Tests

open Sys2Proof Sys2Proof.Machine

/-- A small idle block. -/
def block (ct : List Nat) (bank : List Word) : State := State.constructed { ct := ct, aw := 16, hasWrite := true } bank

/-- Bank A of 95_test_vectors.md section 2.2: 32 bit addresses. -/
def blockA : State := block [0, 1] [0xA5C3, 0x0F1E]

/-- Bank B of 95_test_vectors.md section 2.2: a scattered table. -/
def blockB : State := block [4, 1, 3] [0x1111, 0x2222, 0x3333, 0x4444, 0x5555]

/-- Program P4's block: both entries name register 1. -/
def blockTwice : State := block [1, 1] [0x00FF, 0xBEEF]

/-- Bank A without the write path. -/
def blockNoWrite : State := { blockA with cfg := { blockA.cfg with hasWrite := false } }

/-- The answer of an outcome: the last event and the bank. -/
def answer : Host.Outcome State Fault Refusal → Option (Option Event × List Word)
  | .next t => some (t.log.getLast?, t.bank)
  | _ => none

/-! ## WellFormed: an ill-formed term for each check (R71) -/

theorem test_read_start_too_wide : Instr.wellFormed 16 (.readBits 65536 1) = false := by decide
theorem test_read_count_too_wide : Instr.wellFormed 16 (.readBits 1 65536) = false := by decide
theorem test_write_start_too_wide : Instr.wellFormed 16 (.writeBits 65536 1 [0]) = false := by decide
theorem test_write_count_too_wide : Instr.wellFormed 16 (.writeBits 1 65536 [0]) = false := by decide
theorem test_widest_operands_fit : Instr.wellFormed 16 (.readBits 65535 65535) = true := by decide

/-! ## Decoding (R77, R85; words written bit by bit: op, start, count) -/

theorem test_decode_read :
    decode 16 0b0_0000000000001100_0000000000001000 [] = .ok (.readBits 12 8) := by decide
theorem test_decode_write :
    decode 16 0b1_0000000000001100_0000000000001000 [0x3C] = .ok (.writeBits 12 8 [0x3C]) := by decide
theorem test_decode_read_ignores_data :
    decode 16 0b0_0000000000000100_0000000000101000 [1, 2] = .ok (.readBits 4 40) := by decide
theorem test_decode_narrow_word : decode 3 0b1_101_010 [7] = .ok (.writeBits 5 2 [7]) := by decide
theorem test_decode_too_wide : decode 16 0x200000000 [] = .error .widerThanCmd := by decide
theorem test_table_word_read : decodeTableWord 40 0x0000C0008 = some (.readBits 12 8) := by decide
theorem test_table_word_write : decodeTableWord 40 0x100050009 = some (.writeBits 5 9 [0, 0]) := by decide

/-! ## The instructions -/

/-- RV20: a scattered table, the trace in entry order. -/
theorem test_read_scattered : answer (exec (.readBits 4 40) blockB) =
    some (some (.served (.readBits 4 40) { status := .ok, length := 5, buffer := [0x55, 0x25, 0x22, 0x42, 0x44] }
      [.get 4, .get 1, .get 3]), blockB.bank) := by decide

/-- RV14: the largest shift, and a last byte of one coil. -/
theorem test_read_masks_last_byte : answer (exec (.readBits 7 17) blockA) =
    some (some (.served (.readBits 7 17) { status := .ok, length := 3, buffer := [0x4B, 0x3D, 0x00] }
      [.get 0, .get 1]), blockA.bank) := by decide

/-- WV16: partial, full, full, partial; exactly two gets. -/
theorem test_write_four_registers :
    answer (exec (.writeBits 10 40 [0xFF, 0xFF, 0xFF, 0xFF, 0xFF]) (block [0, 1, 2, 3] [0, 0, 0, 0xFFFF])) =
    some (some (.served (.writeBits 10 40 [0xFF, 0xFF, 0xFF, 0xFF, 0xFF]) { status := .ok, length := 0, buffer := [] }
      [.get 0, .set 0 0xFC00, .set 1 0xFFFF, .set 2 0xFFFF, .get 3, .set 3 0xFFFF]),
      [0xFC00, 0xFFFF, 0xFFFF, 0xFFFF]) := by decide

/-- WV20: a repeated entry; the second get sees the first set. -/
theorem test_write_repeated_entry : answer (exec (.writeBits 8 16 [0x12, 0x34]) blockTwice) =
    some (some (.served (.writeBits 8 16 [0x12, 0x34]) { status := .ok, length := 0, buffer := [] }
      [.get 1, .set 1 0x12EF, .get 1, .set 1 0x1234]), [0x00FF, 0x1234]) := by decide

/-! ## The step -/

/-- XV5 as a word: the sum is exact, an error is a next state. -/
theorem test_step_out_of_range : answer (step (blockA.withFetchWord 40 0x0FFFFFFFF)) =
    some (some (.served (.readBits 65535 65535) { status := .outOfRange, length := 0, buffer := [] } []),
      blockA.bank) := by decide

/-- A table word runs right after reset; the data operand of zeros has the length the count asks for. -/
theorem test_step_first_after_reset : answer (step (State.reset.withFetchWord 40 0x100000008)) =
    some (some (.served (.writeBits 0 8 [0]) { status := .ok, length := 0, buffer := [] } [.get 4, .set 4 0]),
      [0, 0, 0, 0, 0]) := by decide

/-- P3 line 1 and a get of a register that does not exist. -/
theorem test_step_environment_set : answer (step { block [3, 1] [0xDEAD, 0, 0xBEEF, 0] with
    pending := [.regSet 3 0x8001] }) = some (some (.regSet 3 0x8001), [0xDEAD, 0, 0xBEEF, 0x8001]) := by decide
theorem test_step_environment_get_beyond : answer (step { blockA with pending := [.regGet 2] }) = none := by decide

/-- R83's example of a command line, and P3's first line. -/
theorem test_assembly : instrText (.writeBits 12 8 [0x3C]) = "WRITE_BITS 12, 8, [0x3C]" ∧
    regSetText 3 0x8001 = "REG_SET 3, 0x8001" := by decide

/-! ## Witnesses: the hypotheses of the statements can be met, each clause at a boundary -/

theorem witness_CommandWordsDecodeAndEncode :
    Instr.wellFormed 1 (.readBits 1 1) = true ∧ Instr.wellFormed 16 (.writeBits 65535 0 []) = true ∧
    0 < 2 ^ (2 * 16 + 1) ∧ 0x1FFFFFFFF < 2 ^ (2 * 16 + 1) ∧
    decode 16 0x1FFFFFFFF [] = .ok (.writeBits 65535 65535 []) ∧ 0x1FFFFFFFF / 2 ^ (2 * 16) ≠ 0 := by decide

theorem witness_EveryCommandWordIsOneInstruction :
    2 ^ (2 * 16 + 1) - 1 < 2 ^ (2 * 16 + 1) ∧ 2 ^ (2 * 16 + 1) ≤ 2 ^ (2 * 16 + 1) ∧ 65535 < 2 ^ 16 := by decide

theorem witness_StepRunsTheDecodedCommand :
    (blockA.withFetchWord 40 0x0000C0008).pending = [.command 0x0000C0008 []] ∧
    decode 16 0x0000C0008 [] = .ok (.readBits 12 8) ∧
    (blockA.withFetchWord 40 0x200000000).pending = .command 0x200000000 (tableData 0x200000000) :: [] ∧
    2 ^ (2 * blockA.cfg.aw + 1) ≤ 0x200000000 ∧ decodeTableWord 40 0x1FFFF0000 = some (.writeBits 65535 0 []) := by
  decide

theorem witness_BlockWaitsWithNothingPending :
    blockA.pending = [] ∧ ∃ s, setUp blockA.cfg blockA.bank = .ok s := ⟨rfl, _, rfl⟩

theorem witness_RegisterPathIsPlainStorage :
    ({ blockA with pending := [.regSet 1 7] } : State).pending = .regSet 1 7 :: [] ∧ 1 < blockA.bank.length ∧
    ({ blockA with pending := [.regSet 2 7] } : State).pending = .regSet 2 7 :: [] ∧ blockA.bank.length ≤ 2 ∧
    ({ blockA with pending := [.regGet 1] } : State).pending = .regGet 1 :: [] ∧ blockA.bank[1]? = some 0x0F1E ∧
    ({ blockA with pending := [.regGet 2] } : State).pending = .regGet 2 :: [] := by decide

theorem witness_EveryCommandIsAnsweredOnce :
    blockA.operational = true ∧ blockA.cfg.hasWrite = true ∧
    ({ blockA with pending := [.command 0x1FFFFFFFF [1]] } : State).pending = .command 0x1FFFFFFFF [1] :: [] ∧
    0x1FFFFFFFF < 2 ^ (2 * blockA.cfg.aw + 1) := by decide

theorem witness_StepKeepsConfiguration :
    ∃ t, step { blockA with pending := [.command 0x1000C0008 [0x3C]] } = .next t ∧ t.bank ≠ blockA.bank :=
  ⟨_, rfl, by decide⟩

theorem witness_StepKeepsTheHistoryWellFormed :
    ({ blockA with pending := [.command 0x1000C0008 [0x3C]], log := [.regGet 1 0x0F1E] } : State).Inv ∧
    ∃ t, step { blockA with pending := [.command 0x1000C0008 [0x3C]], log := [.regGet 1 0x0F1E] } = .next t :=
  ⟨by unfold State.Inv; decide, _, rfl⟩

theorem witness_SetUpHistoryWellFormed : ∃ s, setUp (block [] []).cfg [] = .ok s := ⟨_, rfl⟩

theorem witness_EveryHistoryIsSerial :
    blockA.operational = true ∧
    SerialHistory blockA.cfg.ct [0xA5C3, 0] [.regSet 1 0x0F1E, .regGet 1 0x0F1E] blockA.bank ∧
    (∃ t, step { blockA with pending := [.command 0x0000C0008 []] } = .next t) ∧
    ∃ s, setUp blockA.cfg blockA.bank = .ok s :=
  ⟨by decide, ⟨_, ⟨by decide, rfl⟩, _, ⟨rfl, rfl⟩, rfl⟩, ⟨_, rfl⟩, _, rfl⟩

theorem witness_SetupAcceptsExactlyValidConfigurations :
    1 ≤ blockA.cfg.aw ∧ (block [0, 2] [0, 0]).operational = false ∧ (block [0, 0, 0] [0, 0]).operational = false ∧
    (block [1, 1] [0, 0]).operational = true ∧ (block [] []).operational = true ∧ (block [] []).cfg.ct = [] ∧
    (block [] []).cfg.hasWrite = true := by decide

theorem witness_WriteBitsRefusedWithoutWritePath :
    blockNoWrite.operational = true ∧ blockNoWrite.cfg.hasWrite = false := by decide

theorem witness_BitAddressesTranslateThroughTheTable :
    blockB.operational = true ∧ 47 < 16 * blockB.cfg.m ∧ ¬ 48 < 16 * blockB.cfg.m ∧ 31 + 1 ≤ 16 * 2 := by decide

theorem witness_SpanStaysInsideTheTable :
    1 ≤ 33 ∧ 15 + 33 ≤ 16 * [4, 1, 3].length ∧ firstRegister 15 = 0 ∧ bitOffset 15 = 15 ∧ totalRegisters 15 33 = 3 ∧
    1 ≤ 1 ∧ 47 + 1 ≤ 16 * [4, 1, 3].length ∧ firstRegister 47 = 2 ∧ totalRegisters 15 1 = 1 := by decide

/-- The only hypothesis is a count of at least one; the smallest, at the last position of a register. -/
theorem witness_RequestQuantitiesHaveTheirRanges :
    1 ≤ 1 ∧ bitOffset 15 = 15 ∧ totalRegisters 15 1 = 1 ∧ totalRegisters 15 2 = 2 ∧ byteShift 15 = 7 ∧ byteOffset 15 = 1 := by
  decide

theorem witness_AccessesStayInTheMinimalSpan :
    (∃ t, exec (.writeBits 30 4 [0x0F]) blockB = .next t) ∧ (∃ t, exec (.readBits 31 1) blockB = .next t) ∧
    ∃ t, exec (.readBits 47 2) blockB = .next t := ⟨⟨_, rfl⟩, ⟨_, rfl⟩, _, rfl⟩

theorem witness_UnnamedRegistersAreNeverTouched :
    0 ∉ blockB.cfg.ct ∧ 2 ∉ blockB.cfg.ct ∧ ∃ t, exec (.writeBits 0 48 [1, 2, 3, 4, 5, 6]) blockB = .next t :=
  ⟨by decide, by decide, _, rfl⟩

/-- Operational, at least one coil, in range: the whole table, the last coil, and a request across a register boundary. -/
theorem witness_ReadBitsReturnsTheCoils :
    blockA.operational = true ∧ 1 ≤ 32 ∧ 0 + 32 ≤ 16 * blockA.cfg.m ∧ 1 ≤ 1 ∧ 31 + 1 ≤ 16 * blockA.cfg.m ∧
    12 + 8 ≤ 16 * blockA.cfg.m := by decide

theorem witness_ReadBitsLengthFollowsFromCount :
    blockA.operational = true ∧ blockB.operational = true ∧ 1 ≤ 17 ∧ 15 + 17 ≤ 16 * blockA.cfg.m ∧
    31 + 17 ≤ 16 * blockB.cfg.m := by decide

theorem witness_ReadBitsGetsTheSpanOnceInOrder :
    blockB.operational = true ∧ 1 ≤ 18 ∧ 30 + 18 ≤ 16 * blockB.cfg.m ∧ 16 * blockB.cfg.m < 30 + 19 := by decide

theorem witness_ReadBitsLeavesTheBank :
    (∃ t, exec (.readBits 0 32) blockA = .next t) ∧ ∃ t, exec (.readBits 0 33) blockA = .next t := ⟨⟨_, rfl⟩, _, rfl⟩

theorem witness_WorkingBufferHoldsTheRegistersLowByteFirst :
    ([0xA5C3, 0x0F1E] : List Word)[1]? = some 0x0F1E ∧ 3 < 2 * ([0xA5C3, 0x0F1E] : List Word).length := by decide

theorem witness_ShiftMovesBitsAcrossBytes :
    7 ≤ 7 ∧ ([0xC3, 0xA5] : List Byte)[0]? = some 0xC3 ∧ ([0xC3, 0xA5] : List Byte)[0 + 1]? = some 0xA5 ∧
    ([0xC3, 0xA5] : List Byte)[1]? = some 0xA5 ∧ 1 + 1 = ([0xC3, 0xA5] : List Byte).length := by decide

theorem witness_ShiftByZeroAltersNothing : 24 % 8 = 0 := by decide

theorem witness_BufferIndicesStayInRange :
    1 ≤ 1 ∧ 15 = bitOffset 31 ∧ 1 = byteOffset 15 ∧ 1 = totalRegisters 15 1 ∧ 1 = packedLength 1 ∧
    ([0, 0] : List Byte).length = 2 * 1 ∧ 8 = bitOffset 8 ∧ 1 = totalRegisters 8 8 ∧ 8 % 8 = 0 := by decide

theorem witness_ChecksRaiseInOrder :
    blockA.operational = true ∧ blockA.cfg.hasWrite = true ∧ 1 ≤ 1 ∧ 16 * blockA.cfg.m < 32 + 1 ∧
    ([] : List Byte).length ≠ (1 - 1) / 8 + 1 ∧ ([0] : List Byte).length = (1 - 1) / 8 + 1 := by decide

theorem witness_ErrorsTouchNothing :
    ∃ t r, exec (.writeBits 24 16 [0x12, 0x34]) blockA = .next t ∧
      t.log = blockA.log ++ [.served (.writeBits 24 16 [0x12, 0x34]) r []] ∧ r.status ≠ .ok :=
  ⟨_, { status := .outOfRange, length := 0, buffer := [] }, rfl, rfl, by decide⟩

theorem witness_ErrorsAreForgotten :
    ∃ t u r, exec (.readBits 0 0) blockA = .next t ∧ t.log = blockA.log ++ [.served (.readBits 0 0) r []] ∧
      r.status ≠ .ok ∧ exec (.writeBits 0 8 [1]) blockA = .next u :=
  ⟨_, _, { status := .invalidArgument, length := 0, buffer := [] }, rfl, rfl, by decide, rfl⟩

/-- Two states that differ in what is pending and in what happened; each kind of outcome but a fault, which no command
of these blocks raises: a block whose table names no register and refuses, and an answer. -/
theorem witness_AnswersDependOnCommandConfigurationAndBank :
    ({ blockA with pending := [.regGet 0], log := [.regGet 0 0xA5C3] } : State).cfg = blockA.cfg ∧
    ({ blockA with pending := [.regGet 0], log := [.regGet 0 0xA5C3] } : State).bank = blockA.bank ∧
    (∃ t, exec (.readBits 0 8) blockA = .next t) ∧
    ∃ f, exec (.readBits 0 8) (block [2] [0]) = .refused f := ⟨rfl, rfl, ⟨_, rfl⟩, _, rfl⟩

theorem witness_OperationalBlockAnswersEveryCommand :
    blockA.operational = true ∧ blockA.cfg.hasWrite = true ∧ blockNoWrite.operational = true ∧
    ∃ start count, Instr.readBits 3 4 = .readBits start count := ⟨by decide, by decide, by decide, 3, 4, rfl⟩

theorem witness_CoverageMaskMarksTheCoveredPositions :
    1 ≤ 1 ∧ 15 = 31 % 16 ∧ 1 = (15 + 1 - 1) / 16 + 1 ∧ 0 < 1 ∧ 1 ≤ 40 ∧ 10 = 10 % 16 ∧ 4 = (10 + 40 - 1) / 16 + 1 ∧
    3 < 4 := by decide

theorem witness_FieldTakesTheRequestsData :
    1 ≤ 9 ∧ 15 = 15 % 16 ∧ 1 < (15 + 9 - 1) / 16 + 1 ∧ ([0xFF, 0xFF] : List Byte).length = (9 - 1) / 8 + 1 ∧
    (coverLo 15 1 ≤ 7 ∧ 7 < coverHi 15 9 1) ∧ ¬ (coverLo 15 1 ≤ 8 ∧ 8 < coverHi 15 9 1) ∧
    ∀ k < 9, bufferBit [0xFF, 0x01] k = bufferBit [0xFF, 0xFF] k := by decide

/-- An acceptable write: partial at both ends, one whole register, and one coil at the end of the table. -/
theorem witness_WriteBitsFollowsTheProcedure :
    blockA.operational = true ∧ blockA.cfg.hasWrite = true ∧ 1 ≤ 17 ∧
    ([0xFF, 0x00, 0xFF] : List Byte).length = (17 - 1) / 8 + 1 ∧ 7 + 17 ≤ 16 * blockA.cfg.m ∧ 7 = 7 % 16 ∧
    2 = (7 + 17 - 1) / 16 + 1 ∧ ([0x34, 0x12] : List Byte).length = (16 - 1) / 8 + 1 ∧ 16 + 16 ≤ 16 * blockA.cfg.m ∧
    ([1] : List Byte).length = (1 - 1) / 8 + 1 ∧ 31 + 1 ≤ 16 * blockA.cfg.m := by decide

/-- On a table with a repeated entry, a coil named last, a coil named again later, and a bit never named. -/
theorem witness_WriteBitsLastNamingCoilWins :
    blockTwice.operational = true ∧ blockTwice.cfg.hasWrite = true ∧ 1 ≤ 32 ∧
    ([0x11, 0x22, 0x33, 0x44] : List Byte).length = (32 - 1) / 8 + 1 ∧ 0 + 32 ≤ 16 * blockTwice.cfg.m ∧
    Names blockTwice.cfg.ct 0 31 1 15 ∧ (∀ k', 31 < k' → k' < 32 → ¬ Names blockTwice.cfg.ct 0 k' 1 15) ∧
    ∀ k < 32, ¬ Names blockTwice.cfg.ct 0 k 0 15 := by
  unfold Names
  refine ⟨by decide, by decide, by decide, by decide, by decide, by decide, fun k' h1 h2 => by omega, by decide⟩

/-- An acceptable write with a distinct span, on a scattered table. -/
theorem witness_WriteBitsChangesExactlyTheAddressedBits :
    blockB.operational = true ∧ blockB.cfg.hasWrite = true ∧ 1 ≤ 18 ∧
    ([1, 2, 3] : List Byte).length = (18 - 1) / 8 + 1 ∧ 30 + 18 ≤ 16 * blockB.cfg.m ∧
    DistinctSpan blockB.cfg.ct 30 18 ∧ Names blockB.cfg.ct 30 0 1 14 ∧
    ∀ k < 18, ¬ Names blockB.cfg.ct 30 k 1 13 := by
  unfold Names
  exact ⟨by decide, by decide, by decide, by decide, by decide, DistinctSpan.of_nodup (by decide) _ _, by decide, by decide⟩

theorem witness_WriteBitsPreservesWhatItDoesNotCover :
    blockB.operational = true ∧ blockB.cfg.hasWrite = true ∧ 1 ≤ 4 ∧ ([0x0F] : List Byte).length = (4 - 1) / 8 + 1 ∧
    30 + 4 ≤ 16 * blockB.cfg.m ∧ DistinctSpan blockB.cfg.ct 30 4 ∧ 14 = 30 % 16 ∧ 2 = (14 + 4 - 1) / 16 + 1 ∧
    (∀ j < 2, blockB.cfg.ct[30 / 16 + j]? ≠ some 4) ∧ blockB.cfg.ct[30 / 16 + 0]? = some 1 ∧ 13 < coverLo 14 0 ∧
    coverHi 14 4 1 ≤ 2 ∧ 29 < 16 * blockB.cfg.m ∧ 34 < 16 * blockB.cfg.m :=
  ⟨by decide, by decide, by decide, by decide, by decide, DistinctSpan.of_nodup (by decide) _ _, by decide, by decide,
    by decide, by decide, by decide, by decide, by decide, by decide⟩

/-- A count that is a multiple of 8 and one that is not. -/
theorem witness_WriteThenReadReturnsTheData :
    blockA.operational = true ∧ blockA.cfg.hasWrite = true ∧ 1 ≤ 8 ∧ ([0x3C] : List Byte).length = (8 - 1) / 8 + 1 ∧
    12 + 8 ≤ 16 * blockA.cfg.m ∧ DistinctSpan blockA.cfg.ct 12 8 ∧ 8 % 8 = 0 ∧
    ([0xFF, 0x00, 0xFF] : List Byte).length = (17 - 1) / 8 + 1 ∧ 15 + 17 ≤ 16 * blockA.cfg.m ∧
    DistinctSpan blockA.cfg.ct 15 17 ∧ 17 % 8 ≠ 0 :=
  ⟨by decide, by decide, by decide, by decide, by decide, DistinctSpan.of_nodup (by decide) _ _, by decide, by decide,
    by decide, DistinctSpan.of_nodup (by decide) _ _, by decide⟩

theorem witness_WriteBitsAsShiftArithmetic :
    blockB.operational = true ∧ blockB.cfg.hasWrite = true ∧ 1 ≤ 4 ∧ ([0xF5] : List Byte).length = (4 - 1) / 8 + 1 ∧
    30 + 4 ≤ 16 * blockB.cfg.m ∧ DistinctSpan blockB.cfg.ct 30 4 ∧ 14 = 30 % 16 ∧ 2 = (14 + 4 - 1) / 16 + 1 ∧
    ([1, 3] : List Nat).length = 2 ∧ ([0x2222, 0x4444] : List Word).length = 2 ∧
    (∀ j < 2, ([1, 3] : List Nat)[j]? = blockB.cfg.ct[30 / 16 + j]?) ∧
    (∀ j < 2, ([0x2222, 0x4444] : List Word)[j]? = blockB.bank[([1, 3] : List Nat)[j]?.getD 9]?) ∧
    5 = littleEndianBytes [0xF5] % 2 ^ 4 :=
  ⟨by decide, by decide, by decide, by decide, by decide, DistinctSpan.of_nodup (by decide) _ _, by decide, by decide,
    by decide, by decide, by decide, by decide, by decide⟩

theorem witness_WriteBitsIgnoresPadding :
    blockA.operational = true ∧ blockA.cfg.hasWrite = true ∧ ([0xFE] : List Byte).length = ([0x00] : List Byte).length ∧
    ∀ k < 1, bufferBit [0xFE] k = bufferBit [0x00] k := by decide

theorem witness_OperationsAreIdempotent :
    blockA.operational = true ∧ blockA.cfg.hasWrite = true ∧ DistinctSpan blockA.cfg.ct 12 8 :=
  ⟨by decide, by decide, DistinctSpan.of_nodup (by decide) _ _⟩

/-- Entry 2 of bank B's table names register 3; the two programs of the statement can be pending. -/
theorem witness_TwoViewsAreOneStorage :
    blockB.operational = true ∧ blockB.cfg.ct[2]? = some 3 ∧ 16 * 2 < 2 ^ blockB.cfg.aw ∧ 16 < 2 ^ blockB.cfg.aw ∧
    blockB.cfg.hasWrite = true ∧
    ({ blockB with pending := [.regSet 3 0x8001, .command (encode 16 (.readBits (16 * 2) 16)).1 []] } : State).pending =
      .regSet 3 0x8001 :: .command (encode blockB.cfg.aw (.readBits (16 * 2) 16)).1 [] :: [] ∧
    ({ blockB with
        pending := [.command (encode 16 (.writeBits (16 * 2) 16 [0x34, 0x12])).1 [0x34, 0x12], .regGet 3] } : State).pending =
      .command (encode blockB.cfg.aw (.writeBits (16 * 2) 16 [0x34, 0x12])).1 [0x34, 0x12] :: .regGet 3 :: [] := by
  decide

end Sys2Proof.Tests
end

/-! Proofs of the statements of 20_memory.md: address translation, the order of bytes, the span of an operation,
repetition, and the two views of one register. -/

namespace Sys2Proof

/-- Decoding what was encoded gives the instruction back, for operands that fit their fields (R85). -/
theorem decode_encode {aw : Nat} {i : Instr} (h : i.wellFormed aw = true) :
    decode aw (encode aw i).1 (encode aw i).2 = .ok i := by
  cases i with
  | readBits start count =>
    simp only [Instr.wellFormed, Bool.and_eq_true, decide_eq_true_eq] at h
    obtain ⟨hs, hc⟩ := h
    simp only [encode, encodeWord, decode, word_lt aw 0 _ _ (Nat.zero_le _) hs hc, opField_eq aw 0 _ _ hs hc,
      startField_eq aw 0 _ _ hs hc, countField_eq aw 0 _ _ hc, if_true]
  | writeBits start count data =>
    simp only [Instr.wellFormed, Bool.and_eq_true, decide_eq_true_eq] at h
    obtain ⟨hs, hc⟩ := h
    simp only [encode, encodeWord, encodeData, decode, word_lt aw 1 _ _ (Nat.le_refl _) hs hc,
      opField_eq aw 1 _ _ hs hc, startField_eq aw 1 _ _ hs hc, countField_eq aw 1 _ _ hc, if_true, one_ne_zero,
      if_false]

end Sys2Proof

namespace Sys2Proof.Machine

open Sys2Proof

/-! ## Single steps -/

/-- A step with an encoded command pending runs that command (R75, R85). -/
theorem step_encoded {s : State} {i : Instr} {rest : List EnvAction} (hw : i.wellFormed s.cfg.aw = true)
    (hp : s.pending = .command (encode s.cfg.aw i).1 (encode s.cfg.aw i).2 :: rest) :
    step s = exec i { s with pending := rest } := by
  simp only [step, State.fetch_cons hp, decode_encode hw]

/-- A step with a set of an existing register pending stores the value (R22, R83). -/
theorem step_regSet {s : State} {i : Nat} {v : Word} {rest : List EnvAction} (hp : s.pending = .regSet i v :: rest)
    (hi : i < s.bank.length) :
    step s = .next { s with bank := s.bank.set i v, pending := rest, log := s.log ++ [.regSet i v] } := by
  have hset : (State.port { s with pending := rest }).set i v = _ := Port.set_eq hi
  simp only [step, State.fetch_cons hp, State.regSet, hset, State.port_bank]

/-- A step with a get of an existing register pending observes its value (R22, R83). -/
theorem step_regGet {s : State} {i : Nat} {v : Word} {rest : List EnvAction} (hp : s.pending = .regGet i :: rest)
    (hi : s.bank[i]? = some v) :
    step s = .next { s with pending := rest, log := s.log ++ [.regGet i v] } := by
  simp only [step, State.fetch_cons hp, State.regGet, Port.get, State.port_bank, hi]

/-! ## Address translation (R43, R44, R45) -/

/-- A coil exists only at a bit address below `16 * M`. -/
theorem lt_of_coil_isSome {ct : List Nat} {bank : List Word} {b : Nat} (h : (coil ct bank b).isSome = true) :
    b < 16 * ct.length := by
  have hr : b / 16 < ct.length := by
    by_contra hge
    simp [coil, coilRegister, List.getElem?_eq_none (Nat.le_of_not_lt hge)] at h
  omega

/-- A bit of a register as the spec computes it, by shift and remainder (R11). -/
theorem getLsbD_eq_shiftRight_mod (v : Word) (p : Nat) : v.getLsbD p = decide ((v.toNat >>> p) % 2 = 1) := by
  rw [BitVec.getLsbD, Nat.testBit_eq_decide_div_mod_eq, Nat.shiftRight_eq_div_pow]

/-- Settles O15: `coil_of_lt` names the bit, and a coil exists only below `16 * M`; a request is in range iff its last
bit address is valid. -/
theorem bitAddressesTranslateThroughTheTable : Obligations.BitAddressesTranslateThroughTheTable := by
  refine ⟨fun s ho b => ⟨⟨lt_of_coil_isSome, fun hb => ?_⟩, fun hb => ?_⟩, fun start count m hc => ⟨?_, fun h => ?_⟩⟩
  · obtain ⟨i, v, -, -, hcoil⟩ := coil_of_lt ho hb
    rw [hcoil, Option.isSome_some]
  · obtain ⟨i, v, hi, hv, hcoil⟩ := coil_of_lt ho hb
    exact ⟨i, v, hi, hv, by rw [hcoil, getLsbD_eq_shiftRight_mod]⟩
  · intro h b _ hb
    omega
  · have hlast := h (start + count - 1) (by omega) (by omega)
    omega

/-! ## Byte order (R47) -/

theorem lowByte_eq_ofNat (v : Word) : lowByte v = BitVec.ofNat 8 (v.toNat % 256) := by
  apply BitVec.eq_of_toNat_eq
  simp [lowByte]

theorem highByte_eq_ofNat (v : Word) : highByte v = BitVec.ofNat 8 (v.toNat / 256) := by
  apply BitVec.eq_of_toNat_eq
  simp [highByte, Nat.shiftRight_eq_div_pow]

/-- The `j`-th register lies at bytes `2*j` and `2*j + 1` (R47). -/
theorem layOut_getElem? {vs : List Word} {j : Nat} {v : Word} (h : vs[j]? = some v) :
    (layOut vs)[2 * j]? = some (lowByte v) ∧ (layOut vs)[2 * j + 1]? = some (highByte v) := by
  induction vs generalizing j with
  | nil => simp at h
  | cons w ws ih =>
    cases j with
    | zero =>
      obtain rfl : w = v := by simpa using h
      exact ⟨rfl, rfl⟩
    | succ j => simpa [Nat.mul_succ] using ih (by simpa using h)

/-- Settles O24: the copy leaves the registers laid out low byte first. -/
theorem workingBufferHoldsTheRegistersLowByteFirst : Obligations.WorkingBufferHoldsTheRegistersLowByteFirst := by
  intro vs
  rw [copyRegisters_workingBuffer]
  refine ⟨fun k hk => by simp [workingBuffer, hk], by simp [workingBuffer], layOut_length vs, fun j v hj => ?_⟩
  rw [← lowByte_eq_ofNat, ← highByte_eq_ofNat]
  exact layOut_getElem? hj

/-! ## The registers an operation touches (R53) -/

/-- The registers of a span are those named by an entry that holds a requested coil (R53, R104). -/
theorem mem_span_iff {ct : List Nat} {start count k : Nat} (hc : 1 ≤ count) :
    k ∈ span ct start count ↔ ∃ e, InSpan start count e ∧ ct[e]? = some k := by
  simp only [inSpan_iff hc, List.mem_iff_getElem?]
  constructor
  · rintro ⟨j, hj⟩
    have hlt : j < totalRegisters (bitOffset start) count := by
      by_contra hge
      simp [span, hge] at hj
    exact ⟨start / 16 + j, ⟨by omega, by omega⟩, by rwa [← span_getElem? _ _ _ _ hlt]⟩
  · rintro ⟨e, ⟨hlo, hhi⟩, he⟩
    refine ⟨e - start / 16, ?_⟩
    rwa [span_getElem? _ _ _ _ (by omega), Nat.add_sub_cancel' hlo]

/-- Only a request of at least one coil has a span. -/
theorem InSpan.one_le_count {start count e : Nat} (h : InSpan start count e) : 1 ≤ count := by
  obtain ⟨b, hlo, hhi, -⟩ := h
  omega

/-- An operation that answers accesses only registers named by an entry that holds a requested coil, and changes no
other one (R53, R164). -/
theorem exec_next_inSpan {s t : State} {i : Instr} (h : exec i s = .next t) :
    ∃ (r : Response) (tr : List Access), t.log = s.log ++ [.served i r tr] ∧
      (∀ a ∈ tr, ∃ e, InSpan i.start i.count e ∧ s.cfg.ct[e]? = some a.register) ∧
      ∀ k, (∀ e, InSpan i.start i.count e → s.cfg.ct[e]? ≠ some k) → t.bank[k]? = s.bank[k]? := by
  cases i with
  | readBits start count =>
    obtain ⟨-, ⟨-, rfl⟩ | ⟨hc, -, rfl⟩⟩ := execReadBits_next h
    · exact ⟨_, [], rfl, by simp, fun _ _ => rfl⟩
    · refine ⟨_, _, rfl, fun a ha => ?_, fun _ _ => rfl⟩
      obtain ⟨k, hk, rfl⟩ := List.mem_map.1 ha
      exact (mem_span_iff hc).1 hk
  | writeBits start count data =>
    obtain ⟨-, -, ⟨-, rfl⟩ | ⟨hc, -, -, rfl⟩⟩ := execWriteBits_next h
    · exact ⟨_, [], rfl, by simp, fun _ _ => rfl⟩
    · refine ⟨_, _, rfl, fun a ha => (mem_span_iff hc).1 (mem_writtenTrace ha), fun k hk => ?_⟩
      refine writtenBank_getElem?_of_notMem fun hmem => ?_
      obtain ⟨e, hin, he⟩ := (mem_span_iff hc).1 hmem
      exact hk e hin he

/-- Settles O18: accesses and changes stay on entries that hold a requested coil, which are the entries from `fr` to
`fr + T - 1`. -/
theorem accessesStayInTheMinimalSpan : Obligations.AccessesStayInTheMinimalSpan := by
  intro s t i h
  obtain ⟨r, tr, hlog, hacc, hbank⟩ := exec_next_inSpan h
  refine ⟨r, tr, hlog, fun a ha => ?_, fun hc e hlo hhi => (inSpan_iff hc).2 ⟨hlo, hhi⟩, fun k hk => ⟨hbank k hk, ?_⟩⟩
  · obtain ⟨e, hin, he⟩ := hacc a ha
    obtain ⟨hlo, hhi⟩ := (inSpan_iff hin.one_le_count).1 hin
    exact ⟨e, hlo, hhi, he⟩
  · rintro a ha rfl
    obtain ⟨e, hin, he⟩ := hacc a ha
    exact hk e hin he

/-! ## Repetition (R54) -/

/-- A read gives one response and one trace, without a set, on every state of the same configuration and bank, and only
records them (R33, R54). -/
theorem execReadBits_answer {s : State} (ho : s.operational = true) (start count : Nat) :
    ∃ (r : Response) (tr : List Access), (∀ a ∈ tr, a.isSet = false) ∧
      ∀ t : State, t.cfg = s.cfg → t.bank = s.bank →
        execReadBits start count t = .next { t with log := t.log ++ [.served (.readBits start count) r tr] } := by
  have hop : ∀ t : State, t.cfg = s.cfg → t.bank = s.bank → t.operational = true := fun t hcfg hbank =>
    (State.operational_congr hcfg (by rw [hbank])).trans ho
  by_cases hst : readStatus s.cfg.m start count = .ok
  · obtain ⟨hc, hr⟩ := readStatus_eq_ok_iff.1 hst
    refine ⟨Response.success (extractBits (bitOffset start) count ((span s.cfg.ct start count).map (s.bank.getD · 0)))
      (packedLength count), (span s.cfg.ct start count).map Access.get, by simp [Access.isSet], fun t hcfg hbank => ?_⟩
    rw [execReadBits_eq (hop t hcfg hbank) hc (hcfg ▸ hr), hcfg, hbank]
  · refine ⟨Response.error (readStatus s.cfg.m start count), [], by simp, fun t hcfg hbank => ?_⟩
    rw [← hcfg] at hst ⊢
    exact execReadBits_raise (hop t hcfg hbank) hst

/-- Among the registers of a span that cover a position of one bank element there is a last one. -/
theorem exists_last_cover {o count j : Nat} {is : List Nat} {i p : Nat} (h : ¬ Uncovered o count j is i p) :
    ∃ n, is[n]? = some i ∧ Covers o count (j + n) p ∧
      ∀ n', n < n' → is[n']? = some i → ¬ Covers o count (j + n') p := by
  have hex : ∃ n, is[n]? = some i ∧ Covers o count (j + n) p := by
    by_contra hnone
    exact h fun n hn hcov => hnone ⟨n, hn, hcov⟩
  obtain ⟨n, hn⟩ := hex
  have hle {k : Nat} (hk : is[k]? = some i) : k ≤ is.length := (List.getElem?_eq_some_iff.1 hk).1.le
  obtain ⟨hlast, hcov⟩ :=
    Nat.findGreatest_spec (P := fun n => is[n]? = some i ∧ Covers o count (j + n) p) (hle hn.1) hn
  exact ⟨_, hlast, hcov, fun k hk hi hc => Nat.findGreatest_is_greatest hk (hle hi) ⟨hi, hc⟩⟩

/-- Handling a span twice leaves the bank as handling it once: a covered position takes the data of the last register
that covers it whatever was there, any other position is never changed (R54, R141). -/
theorem writtenBank_writtenBank (data : List Byte) (o count j : Nat) (is : List Nat) (b : List Word) :
    writtenBank data o count j is (writtenBank data o count j is b) = writtenBank data o count j is b := by
  have hbit : ∀ i < b.length, ∀ p < 16,
      ((writtenBank data o count j is (writtenBank data o count j is b)).getD i 0).getLsbD p =
        ((writtenBank data o count j is b).getD i 0).getLsbD p := by
    intro i hi p hp
    by_cases hu : Uncovered o count j is i p
    · exact writtenBank_uncovered _ _ _ _ _ _ _ _ hp hu
    · obtain ⟨n, hn, hcov, hlast⟩ := exists_last_cover hu
      rw [writtenBank_covered _ _ _ _ _ _ _ _ n hp (by simpa using hi) hn hcov hlast,
        writtenBank_covered _ _ _ _ _ _ _ _ n hp hi hn hcov hlast]
  refine List.ext_getElem (by simp) fun i h₁ h₂ => BitVec.eq_of_getLsbD_eq fun p hp => ?_
  have := hbit i (by simpa using h₂) p hp
  rwa [List.getD_eq_getElem _ _ h₁, List.getD_eq_getElem _ _ h₂] at this

/-- Settles O42: a read's answer depends on configuration and bank only, which it leaves; a write that fails a check
fails it again, and handling a span twice is handling it once. Repeated span entries do no harm here. -/
theorem operationsAreIdempotent : Obligations.OperationsAreIdempotent := by
  refine ⟨fun s start count ho => ?_, fun s start count data ho hw _ => ?_⟩
  · obtain ⟨r, tr, hget, hread⟩ := execReadBits_answer ho start count
    exact ⟨_, _, r, tr, hread s rfl rfl, hread _ rfl rfl, rfl, rfl, rfl, rfl, hget⟩
  · by_cases hst : writeStatus s.cfg.m start count data = .ok
    · obtain ⟨hc, hd, hr⟩ := writeStatus_eq_ok_iff.1 hst
      refine ⟨_, _, execWriteBits_eq ho hw hc hd hr, execWriteBits_eq ?_ hw hc hd hr,
        writtenBank_writtenBank _ _ _ _ _ _⟩
      rw [← ho]
      exact State.operational_congr rfl (writtenBank_length ..)
    · exact ⟨_, _, execWriteBits_raise ho hw hst, execWriteBits_raise ho hw hst, rfl⟩

/-! ## The two views of one register (R49) -/

/-- The sixteen coils of entry `r` span that entry's register alone. -/
theorem span_whole_register {ct : List Nat} {r i : Nat} (h : ct[r]? = some i) : span ct (16 * r) 16 = [i] := by
  obtain ⟨hr, rfl⟩ := List.getElem?_eq_some_iff.1 h
  have hfirst : firstRegister (16 * r) = r := Nat.mul_div_cancel_left r (by decide)
  have htotal : totalRegisters (bitOffset (16 * r)) 16 = 1 := by simp [bitOffset, totalRegisters]
  rw [span, hfirst, htotal, List.drop_eq_getElem_cons hr, List.take_succ_cons, List.take_zero]

/-- Sixteen coils extracted from position 0 of a register are its two bytes (R47). -/
theorem extractBits_whole_register (v : Word) : extractBits 0 16 [v] = [lowByte v, highByte v] := by
  refine eq_of_bufferBit_eq (extractBits_length 0 16 (by decide) (by decide) [v] rfl) fun k => ?_
  rw [bufferBit_extractBits 0 16 (by decide) [v] rfl, Nat.zero_add, ← bufferBit_layOut]
  by_cases hk : k < 16
  · simp [hk]
  · simp [hk, bufferBit_of_le, Nat.le_of_not_lt hk]

/-- Two bytes written over all of a register make it the number they are, whatever it held (R49, R135). -/
theorem newValue_whole_register (d0 d1 : Byte) (old : Word) :
    newValue [d0, d1] 0 16 0 old = BitVec.ofNat 16 (d0.toNat + 256 * d1.toNat) := by
  have hle : d0.toNat + 256 * d1.toNat = littleEndianBytes [d0, d1] := by simp [littleEndianBytes]
  refine BitVec.eq_of_getLsbD_eq fun p hp => ?_
  have hcov : Covers 0 16 0 p := ⟨Nat.zero_le p, hp⟩
  rw [newValue_getLsbD _ _ _ _ _ _ hp, if_pos hcov, BitVec.getLsbD_ofNat, hle, littleEndianBytes_testBit]
  simp [hp]

/-- Settles O43: one entry's sixteen coils span its register alone, so the step after a register-path set extracts the
two bytes just set, and the step after a whole-register write observes the number the two bytes make. -/
theorem twoViewsAreOneStorage : Obligations.TwoViewsAreOneStorage := by
  intro s r i rest ho hct hstart hcount
  have hrange : 16 * r + 16 ≤ 16 * s.cfg.m := by
    have := (List.getElem?_eq_some_iff.1 hct).1
    unfold Config.m
    omega
  have hi : i < s.bank.length := ((State.operational_iff s).1 ho).1.2 i (List.mem_of_getElem? hct)
  have hoff : bitOffset (16 * r) = 0 := Nat.mul_mod_right 16 r
  refine ⟨fun v hp => ?_, fun d0 d1 hw hp => ?_⟩
  · have hcoil : ∀ p < 16, coil s.cfg.ct (s.bank.set i v) (16 * r + p) = some (v.getLsbD p) := by
      intro p hp
      have hreg : (16 * r + p) / 16 = r := by omega
      have hpos : (16 * r + p) % 16 = p := by omega
      simp [-BitVec.getLsbD_eq_getElem, coil, coilRegister, hreg, hpos, hct, hi]
    refine ⟨_, _, [.get i], step_regSet hp hi,
      (step_encoded (i := .readBits (16 * r) 16) (rest := rest) (by simp [Instr.wellFormed, hstart, hcount]) rfl).trans
        (execReadBits_eq ?_ (by decide) hrange), ?_, hcoil⟩
    · rw [← ho]
      exact State.operational_congr rfl List.length_set
    · simp [hoff, span_whole_register hct, hi, extractBits_whole_register, lowByte_eq_ofNat, highByte_eq_ofNat,
        Response.success, packedLength]
  · have hwrite : writtenBank [d0, d1] (bitOffset (16 * r)) 16 0 (span s.cfg.ct (16 * r) 16) s.bank =
        s.bank.set i (BitVec.ofNat 16 (d0.toNat + 256 * d1.toNat)) := by
      rw [hoff, span_whole_register hct, writtenBank, writtenBank, newValue_whole_register]
    refine ⟨_, _, (step_encoded (i := .writeBits (16 * r) 16 [d0, d1]) (by simp [Instr.wellFormed, hstart, hcount])
        hp).trans (execWriteBits_eq ho hw (by decide) rfl hrange), step_regGet rfl ?_, rfl⟩
    simp only [hwrite, List.getElem?_set_self hi]

end Sys2Proof.Machine

/-! Proofs of the statements of 30_encoding.md: the command word. -/

namespace Sys2Proof

/-- A number of the format's width decodes to the operation of its top bit, with operands from their fields (R77, R79). -/
theorem decode_of_lt {aw w : Nat} (data : List Byte) (h : w < 2 ^ cmdWidth aw) :
    decode aw w data = .ok
      (if opField aw w = 0 then .readBits (startField aw w) (countField aw w)
       else .writeBits (startField aw w) (countField aw w) data) := by
  rw [decode, if_pos h, apply_ite Except.ok]

theorem startField_lt (aw w : Nat) : startField aw w < 2 ^ aw := Nat.mod_lt _ (Nat.two_pow_pos aw)

theorem countField_lt (aw w : Nat) : countField aw w < 2 ^ aw := Nat.mod_lt _ (Nat.two_pow_pos aw)

/-- The decoder gives only instructions whose operands fit their fields (R80). -/
theorem wellFormed_of_decode {aw w : Nat} {data : List Byte} {i : Instr} (h : decode aw w data = .ok i) :
    i.wellFormed aw = true := by
  obtain ⟨-, ⟨-, rfl⟩ | ⟨-, rfl⟩⟩ := decode_ok h <;> simp [Instr.wellFormed, startField_lt, countField_lt]

/-- Encoding what was decoded gives the word back (R85). -/
theorem encodeWord_of_decode {aw w : Nat} {data : List Byte} {i : Instr} (h : decode aw w data = .ok i) :
    encodeWord aw i = w := by
  have hw := word_of_fields aw w
  obtain ⟨-, ⟨hop, rfl⟩ | ⟨hop, rfl⟩⟩ := decode_ok h
  · rwa [hop] at hw
  · rwa [hop] at hw

/-- Encoding a decoded write gives back the data delivered beside its word (R81, R85). -/
theorem encodeData_of_decode {aw w : Nat} {data : List Byte} {i : Instr} (h : decode aw w data = .ok i)
    (hop : opField aw w ≠ 0) : encodeData i = data := by
  obtain ⟨-, ⟨h0, -⟩ | ⟨-, rfl⟩⟩ := decode_ok h
  · exact absurd h0 hop
  · rfl

/-- Settles O1: the encoder's formula is its definition; decoding after encoding loses no field because the fields fit,
and encoding after decoding puts the word's own three fields together again. -/
theorem commandWordsDecodeAndEncode : Obligations.CommandWordsDecodeAndEncode := by
  refine ⟨fun aw w data hw => decode_of_lt data hw, fun aw start count data => ⟨rfl, rfl⟩, fun aw i hi => decode_encode hi,
    fun aw w data i h => ⟨wellFormed_of_decode h, encodeWord_of_decode h, encodeData_of_decode h⟩, ?_, ?_⟩
  · decide
  · decide

end Sys2Proof

/-! Proofs of the statements of 40_read_bits.md: the quantities of a request, the shift across bytes, and what
`READ_BITS` returns, accesses and leaves unchanged. -/

namespace Sys2Proof.Machine

open Sys2Proof

/-! ## The quantities of a request (R102, R103, R104, R106) -/

theorem bitOffset_lt (start : Nat) : bitOffset start < 16 := Nat.mod_lt start (by decide)

/-- The first register and the offset in it are the start (R102). -/
theorem firstRegister_bitOffset (start : Nat) : 16 * firstRegister start + bitOffset start = start :=
  Nat.div_add_mod start 16

/-- The last entry of a span is the one that holds the last requested coil (R103, R104). -/
theorem firstRegister_add_totalRegisters {start count : Nat} (hc : 1 ≤ count) :
    firstRegister start + totalRegisters (bitOffset start) count - 1 = (start + count - 1) / 16 := by
  unfold firstRegister totalRegisters bitOffset
  omega

/-- The packed length of at least one coil is `ceil(count / 8)` (R109). -/
theorem packedLength_eq_ceil {count : Nat} (hc : 1 ≤ count) : packedLength count = (count + 7) / 8 := by
  unfold packedLength
  omega

/-- Settles O17: the formulas are the definitions, and the ranges are those of a quotient and a remainder. -/
theorem requestQuantitiesHaveTheirRanges : Obligations.RequestQuantitiesHaveTheirRanges := by
  intro start count _
  have ho := bitOffset_lt start
  have hq : byteOffset (bitOffset start) = 0 ∨ byteOffset (bitOffset start) = 1 := by
    unfold byteOffset
    omega
  exact ⟨rfl, rfl, Nat.le_of_lt_succ ho, (firstRegister_bitOffset start).symm, rfl, Nat.succ_pos _, rfl, rfl,
    Nat.le_of_lt_succ (Nat.mod_lt _ (by decide)), hq, (Nat.div_add_mod (bitOffset start) 8).symm⟩

/-- Settles O16: the span ends at the entry of the last requested coil, which an in-range request keeps inside the
table; every entry of it therefore exists. -/
theorem spanStaysInsideTheTable : Obligations.SpanStaysInsideTheTable := by
  rintro ct start count _ _ _ hc hr rfl rfl rfl
  have hstart := firstRegister_bitOffset start
  have ho := bitOffset_lt start
  have hlast := firstRegister_add_totalRegisters (start := start) hc
  have ht : 1 ≤ totalRegisters (bitOffset start) count := Nat.succ_pos _
  have hinside : firstRegister start + totalRegisters (bitOffset start) count ≤ ct.length := by omega
  refine ⟨by omega, hlast, by omega, fun j hj => ?_, span_length ct start count hc hr, by omega, Nat.sub_le _ _, rfl,
    fun j hj hjt => by omega⟩
  have hentry := List.getElem?_eq_getElem (l := ct) (i := firstRegister start + j) (by omega)
  exact ⟨_, hentry, (span_getElem? ct start count j hj).trans hentry⟩

/-! ## The shift across bytes (R107) -/

/-- The shifted byte as the rule's arithmetic formula. -/
theorem shiftedByte_toNat (s : Nat) (b next : Byte) :
    (shiftedByte s b next).toNat = ((b.toNat >>> s) ||| (next.toNat <<< (8 - s))) % 256 := by
  have hb : b.toNat >>> s < 2 ^ 8 := Nat.lt_of_le_of_lt (Nat.shiftRight_le _ _) b.isLt
  rw [shiftedByte, BitVec.toNat_or, BitVec.toNat_ushiftRight, BitVec.toNat_shiftLeft, show 256 = 2 ^ 8 by rfl,
    Nat.or_mod_two_pow, Nat.mod_eq_of_lt hb]

/-- The low `8 - s` bits of a shifted byte are the byte's own high bits. -/
theorem shiftedByte_getLsbD_low {s p : Nat} (b next : Byte) (hp : p < 8 - s) :
    (shiftedByte s b next).getLsbD p = b.getLsbD (p + s) := by
  rw [shiftedByte, BitVec.getLsbD_or, BitVec.getLsbD_ushiftRight, BitVec.getLsbD_shiftLeft, Nat.add_comm]
  simp [-BitVec.getLsbD_eq_getElem, hp]

/-- The high `s` bits of a shifted byte are the successor's low bits. -/
theorem shiftedByte_getLsbD_high {s p : Nat} (b next : Byte) (hlo : 8 - s ≤ p) (hp : p < 8) :
    (shiftedByte s b next).getLsbD p = next.getLsbD (p - (8 - s)) := by
  have hb : b.getLsbD (s + p) = false := BitVec.getLsbD_of_ge _ _ (by omega)
  rw [shiftedByte, BitVec.getLsbD_or, BitVec.getLsbD_ushiftRight, BitVec.getLsbD_shiftLeft, hb]
  simp [-BitVec.getLsbD_eq_getElem, hp, hlo]

/-- A byte that has a successor is shifted together with it. -/
theorem shiftBytes_getElem?_of_next (s : Nat) {w : List Byte} {i : Nat} {b next : Byte} (hb : w[i]? = some b)
    (hnext : w[i + 1]? = some next) : (shiftBytes s w)[i]? = some (shiftedByte s b next) := by
  induction w using shiftBytes.induct generalizing i with
  | case1 => simp at hb
  | case2 => simp at hnext
  | case3 x y rest ih =>
    cases i with
    | zero =>
      obtain rfl : x = b := by simpa using hb
      obtain rfl : y = next := by simpa using hnext
      rfl
    | succ i => simpa [shiftBytes] using ih (by simpa using hb) (by simpa using hnext)

/-- The last byte has no successor and is shifted alone. -/
theorem shiftBytes_getElem?_last (s : Nat) {w : List Byte} {i : Nat} {b : Byte} (hb : w[i]? = some b)
    (hlast : i + 1 = w.length) : (shiftBytes s w)[i]? = some (b >>> s) := by
  induction w using shiftBytes.induct generalizing i with
  | case1 => simp at hb
  | case2 x =>
    obtain rfl : i = 0 := by simpa using hlast
    obtain rfl : x = b := by simpa using hb
    rfl
  | case3 x y rest ih =>
    cases i with
    | zero => simp at hlast
    | succ i => simpa [shiftBytes] using ih (by simpa using hb) (by simpa using hlast)

/-- Settles O25: a byte with a successor becomes the formula of both, the last byte its own shift. -/
theorem shiftMovesBitsAcrossBytes : Obligations.ShiftMovesBitsAcrossBytes := by
  intro s w _
  refine ⟨shiftBytes_length s w, fun i b hb => ⟨fun next hnext => ?_, fun hlast => ?_⟩⟩
  · exact ⟨_, shiftBytes_getElem?_of_next s hb hnext, shiftedByte_toNat s b next,
      fun p hp => shiftedByte_getLsbD_low b next hp, fun p hlo hp => shiftedByte_getLsbD_high b next hlo hp⟩
  · refine ⟨_, shiftBytes_getElem?_last s hb hlast, BitVec.toNat_ushiftRight b s, fun p hp => ?_⟩
    rw [BitVec.getLsbD_ushiftRight]
    exact BitVec.getLsbD_of_ge _ _ (by omega)

/-! ## What a read returns (R111, R112) -/

/-- The values of the registers of a request's span, in entry order (R105). -/
def State.spanValues (s : State) (start count : Nat) : List Word := (span s.cfg.ct start count).map (s.bank.getD · 0)

section InRange

variable {s : State} {start count : Nat} (hc : 1 ≤ count) (hr : start + count ≤ 16 * s.cfg.m)

include hc hr

theorem State.spanValues_length : (s.spanValues start count).length = totalRegisters (bitOffset start) count := by
  rw [State.spanValues, List.length_map, span_length _ _ _ hc hr]

/-- The bits a read extracts are its span's bits from the bit offset on, below `count` (R105 to R110). -/
theorem bufferBit_extractBits_spanValues (k : Nat) :
    bufferBit (extractBits (bitOffset start) count (s.spanValues start count)) k =
      (decide (k < count) && wordsBit (s.spanValues start count) (bitOffset start + k)) :=
  bufferBit_extractBits _ _ hc _ (State.spanValues_length hc hr) k

theorem extractBits_spanValues_length :
    (extractBits (bitOffset start) count (s.spanValues start count)).length = packedLength count :=
  extractBits_length _ _ (bitOffset_lt start) hc _ (State.spanValues_length hc hr)

/-- The extracted bytes as one little-endian number, by its bits (R111). -/
theorem littleEndianBytes_extractBits_spanValues :
    littleEndianBytes (extractBits (bitOffset start) count (s.spanValues start count)) =
      (littleEndianWords (s.spanValues start count) >>> bitOffset start) % 2 ^ count := by
  refine Nat.eq_of_testBit_eq fun k => ?_
  rw [littleEndianBytes_testBit, bufferBit_extractBits_spanValues hc hr, Nat.testBit_mod_two_pow,
    Nat.testBit_shiftRight, littleEndianWords_testBit]

variable (ho : s.operational = true)

include ho

/-- An in-range read completes with the bits extracted from the values of its span. -/
theorem exec_readBits_eq :
    exec (.readBits start count) s = .next { s with
      log := s.log ++ [.served (.readBits start count)
        (Response.success (extractBits (bitOffset start) count (s.spanValues start count)) (packedLength count))
        ((span s.cfg.ct start count).map Access.get)] } :=
  execReadBits_eq ho hc hr

/-- The `j`-th value of a span is what the register behind entry `fr + j` holds. -/
theorem State.spanValues_getElem? {j : Nat} (hj : j < totalRegisters (bitOffset start) count) :
    ∃ i, s.cfg.ct[start / 16 + j]? = some i ∧ s.bank[i]? = (s.spanValues start count)[j]? := by
  have hlen : j < (span s.cfg.ct start count).length := by rwa [span_length _ _ _ hc hr]
  have hi := State.span_lt ho (List.getElem_mem hlen)
  refine ⟨(span s.cfg.ct start count)[j], ?_, ?_⟩
  · rw [← span_getElem? _ _ _ _ hj, List.getElem?_eq_getElem hlen]
  · simp [State.spanValues, hlen, hi]

/-- The requested coils are the bits of the span from the bit offset on (R44, R111). -/
theorem coil_eq_wordsBit_spanValues {k : Nat} (hk : k < count) :
    coil s.cfg.ct s.bank (start + k) = some (wordsBit (s.spanValues start count) (bitOffset start + k)) := by
  have hdiv : (start + k) / 16 = start / 16 + (bitOffset start + k) / 16 := by unfold bitOffset; omega
  have hmod : (start + k) % 16 = (bitOffset start + k) % 16 := by unfold bitOffset; omega
  have hj : (bitOffset start + k) / 16 < totalRegisters (bitOffset start) count := by unfold totalRegisters; omega
  obtain ⟨i, v, hi, hv, hcoil⟩ := coil_of_lt ho (b := start + k) (by omega)
  obtain ⟨i', hi', hv'⟩ := State.spanValues_getElem? hc hr ho hj
  obtain rfl : i = i' := by simpa [hdiv, hi'] using hi.symm
  rw [hcoil, hmod, wordsBit, List.getD_eq_getElem?_getD, ← hv', hv, Option.getD_some]

end InRange

/-- Settles O20: the extracted bits below `count` are the span's bits from the bit offset on, which are the coils; the
rest are masked. -/
theorem readBitsReturnsTheCoils : Obligations.ReadBitsReturnsTheCoils := by
  intro s start count ho hc hr
  have hbit := bufferBit_extractBits_spanValues hc hr
  have hlen := State.spanValues_length hc hr
  rw [← packedLength_eq_ceil hc]
  refine ⟨_, _, s.spanValues start count, exec_readBits_eq hc hr ho, extractBits_spanValues_length hc hr,
    fun k hk => ?_, fun k hk _ => ?_, hlen, fun j hj => State.spanValues_getElem? hc hr ho (hlen ▸ hj),
    littleEndianBytes_extractBits_spanValues hc hr⟩
  · rw [hbit, decide_eq_true hk, Bool.true_and, coil_eq_wordsBit_spanValues hc hr ho hk]
  · rw [hbit, decide_eq_false (Nat.not_lt.2 hk), Bool.false_and]

/-- Settles O21: both reads complete, each with a buffer of the packed length of the one count. -/
theorem readBitsLengthFollowsFromCount : Obligations.ReadBitsLengthFollowsFromCount := by
  intro s s' start start' count ho ho' hc hr hr'
  exact ⟨_, _, _, _, exec_readBits_eq hc hr ho, exec_readBits_eq hc hr' ho', extractBits_spanValues_length hc hr,
    extractBits_spanValues_length hc hr'⟩

/-! ## What a read accesses and leaves unchanged (R113, R115) -/

/-- Settles O22: the registers got are the span, whose `j`-th register is entry `fr + j`; a request that fails a check
raises before any access. -/
theorem readBitsGetsTheSpanOnceInOrder : Obligations.ReadBitsGetsTheSpanOnceInOrder := by
  refine ⟨fun s start count ho hc hr => ?_, fun s start count ho hbad => ?_⟩
  · have hlen := span_length s.cfg.ct start count hc hr
    exact ⟨_, span s.cfg.ct start count, exec_readBits_eq hc hr ho, rfl, hlen,
      fun j hj => span_getElem? _ _ _ _ (hlen ▸ hj)⟩
  · have hfail : readStatus s.cfg.m start count ≠ .ok := fun hok => by
      obtain ⟨hc, hr⟩ := readStatus_eq_ok_iff.1 hok
      omega
    exact ⟨_, execReadBits_raise ho hfail, hfail⟩

/-- Settles O23: a read that answers has raised, with the empty trace, or has got the registers of its span; either way
it only records an event. -/
theorem readBitsLeavesTheBank : Obligations.ReadBitsLeavesTheBank := by
  intro s t start count h
  obtain ⟨-, ⟨-, rfl⟩ | ⟨-, -, rfl⟩⟩ := execReadBits_next h
  · exact ⟨rfl, rfl, rfl, _, [], rfl, by simp⟩
  · exact ⟨rfl, rfl, rfl, _, _, rfl, by simp [Access.isSet]⟩

end Sys2Proof.Machine

/-! Proofs of the statements of 41_write_bits.md: what each register of a span receives, and what `WRITE_BITS` sets,
leaves unchanged, and makes of the span as one number. -/

namespace Sys2Proof.Machine

open Sys2Proof

/-- Settles O13: on an operational block the write path is what is looked for first. -/
theorem writeBitsRefusedWithoutWritePath : Obligations.WriteBitsRefusedWithoutWritePath := by
  intro s start count data ho hw
  simp [exec, execWriteBits, ho, hw]

/-- The state after an acceptable write: the bank and the accesses are those of its span, the answer is empty. -/
def State.written (s : State) (start count : Nat) (data : List Byte) : State :=
  { s with
    bank := writtenBank data (bitOffset start) count 0 (span s.cfg.ct start count) s.bank
    log := s.log ++ [.served (.writeBits start count data) (Response.success [] 0)
      (writtenTrace data (bitOffset start) count 0 (span s.cfg.ct start count) s.bank)] }

@[simp] theorem State.written_cfg (s : State) (start count : Nat) (data : List Byte) :
    (s.written start count data).cfg = s.cfg := rfl

@[simp] theorem State.written_bank (s : State) (start count : Nat) (data : List Byte) :
    (s.written start count data).bank =
      writtenBank data (bitOffset start) count 0 (span s.cfg.ct start count) s.bank := rfl

@[simp] theorem State.written_operational (s : State) (start count : Nat) (data : List Byte) :
    (s.written start count data).operational = s.operational :=
  State.operational_congr rfl (writtenBank_length ..)

theorem exec_writeBits_eq {s : State} {start count : Nat} {data : List Byte} (ho : s.operational = true)
    (hw : s.cfg.hasWrite = true) (hc : 1 ≤ count) (hd : data.length = packedLength count)
    (hr : start + count ≤ 16 * s.cfg.m) :
    exec (.writeBits start count data) s = .next (s.written start count data) :=
  execWriteBits_eq ho hw hc hd hr

/-! ## Coverage and field of one register (R134, R136) -/

/-- A position is covered exactly when it is a bit of the span from the bit offset on, below `o + count`. -/
theorem covers_iff {o count j p : Nat} (ho : o < 16) (hp : p < 16) :
    Covers o count j p ↔ o ≤ 16 * j + p ∧ 16 * j + p < o + count := by
  unfold Covers coverLo coverHi
  split <;> omega

/-- Every register of a span has a covered position. -/
theorem coverLo_lt_coverHi {o count j : Nat} (ho : o < 16) (hc : 1 ≤ count) (hj : j < totalRegisters o count) :
    coverLo o j < coverHi o count j := by
  unfold totalRegisters at hj
  unfold coverLo coverHi
  split <;> omega

/-- The mask's formula fits a register, so that as a number it is the formula. -/
theorem coverMask_toNat (o count j : Nat) (h : coverLo o j ≤ coverHi o count j) :
    (coverMask o count j).toNat = ((1 <<< (coverHi o count j - coverLo o j)) - 1) <<< coverLo o j := by
  rw [coverMask, BitVec.toNat_ofNat]
  refine Nat.mod_eq_of_lt ?_
  rw [Nat.one_shiftLeft, Nat.shiftLeft_eq]
  calc (2 ^ (coverHi o count j - coverLo o j) - 1) * 2 ^ coverLo o j
      < 2 ^ (coverHi o count j - coverLo o j) * 2 ^ coverLo o j :=
        Nat.mul_lt_mul_of_pos_right (Nat.sub_lt (Nat.two_pow_pos _) Nat.one_pos) (Nat.two_pow_pos _)
    _ = 2 ^ coverHi o count j := by rw [← Nat.pow_add, Nat.sub_add_cancel h]
    _ ≤ 2 ^ 16 := Nat.pow_le_pow_right (by decide) (coverHi_le o count j)

/-- Only the first and the last register of a span can be partially covered. -/
theorem first_or_last_of_partial {o count j : Nat} (hc : 1 ≤ count) (hj : j < totalRegisters o count)
    (h : coverMask o count j ≠ 0xFFFF) :
    (j = 0 ∧ o ≠ 0) ∨ (j = totalRegisters o count - 1 ∧ (o + count) % 16 ≠ 0) := by
  rw [Ne, coverMask_eq_full_iff] at h
  unfold coverLo coverHi at h
  unfold totalRegisters at hj ⊢
  split at h <;> omega

/-- Settles O33: bounds, number and bits of the mask, each by its own lemma. -/
theorem coverageMaskMarksTheCoveredPositions : Obligations.CoverageMaskMarksTheCoveredPositions := by
  rintro start count _ _ j hc rfl rfl hj
  have hlt := coverLo_lt_coverHi (bitOffset_lt start) hc hj
  exact ⟨rfl, rfl, hlt, coverHi_le _ _ _, coverMask_toNat _ _ _ hlt.le, fun p _ => coverMask_getLsbD _ _ _ p,
    coverMask_eq_full_iff _ _ _, first_or_last_of_partial hc hj⟩

/-- The field looks at no bit of `data` from `count` on (R136). -/
theorem coverField_congr {data data' : List Byte} {o count : Nat} (j : Nat) (ho : o < 16)
    (h : ∀ k < count, bufferBit data' k = bufferBit data k) : coverField data' o count j = coverField data o count j := by
  refine BitVec.eq_of_getLsbD_eq fun p hp => ?_
  rw [coverField_getLsbD _ _ _ _ _ hp, coverField_getLsbD _ _ _ _ _ hp]
  by_cases hcov : Covers o count j p
  · have := (covers_iff ho hp).1 hcov
    rw [h _ (by omega)]
  · rw [decide_eq_false hcov, Bool.false_and, Bool.false_and]

/-- A bit of a byte sequence is a bit of one of its bytes. -/
theorem exists_byte_of_bufferBit {data : List Byte} {k : Nat} (h : k / 8 < data.length) :
    ∃ b, data[k / 8]? = some b ∧ bufferBit data k = b.getLsbD (k % 8) :=
  ⟨data[k / 8], List.getElem?_eq_getElem h, by rw [bufferBit, List.getD_eq_getElem _ _ h]⟩

/-- Settles O34: a covered position is a requested bit, whose byte `data` has; the other positions stay zero. -/
theorem fieldTakesTheRequestsData : Obligations.FieldTakesTheRequestsData := by
  rintro start count _ j data data' hc rfl hj hd
  refine ⟨fun p hp hlo hhi => ?_, fun p hp hun => ?_, coverField_congr j (bitOffset_lt start)⟩
  · have hcov : Covers (start % 16) count j p := ⟨hlo, hhi⟩
    obtain ⟨hge, hlt⟩ := (covers_iff (Nat.mod_lt start (by decide)) hp).1 hcov
    obtain ⟨b, hb, hbit⟩ := exists_byte_of_bufferBit (data := data) (k := 16 * j + p - start % 16) (by omega)
    exact ⟨by omega, hge, b, hb, by rw [coverField_getLsbD _ _ _ _ _ hp, decide_eq_true hcov, Bool.true_and, hbit]⟩
  · rw [coverField_getLsbD _ _ _ _ _ hp, decide_eq_false hun, Bool.false_and]

/-! ## The procedure, register by register (R135, R140) -/

/-- The accesses that handle one register of a span with the new value `v` (R135). -/
def registerAccesses (o count j i : Nat) (v : Word) : List Access :=
  if coverMask o count j = 0xFFFF then [.set i v] else [.get i, .set i v]

/-- The bank after the first `n` registers of a span are handled. -/
def bankAfter (data : List Byte) (o count : Nat) (is : List Nat) (b : List Word) (n : Nat) : List Word :=
  writtenBank data o count 0 (is.take n) b

/-- The value the `j`-th register of a span is set to, its old value read from the bank as it then stands. -/
def valueAt (data : List Byte) (o count : Nat) (is : List Nat) (b : List Word) (j : Nat) : Word :=
  newValue data o count j ((bankAfter data o count is b j).getD (is.getD j 0) 0)

theorem writtenBank_append (data : List Byte) (o count j : Nat) (is js : List Nat) (b : List Word) :
    writtenBank data o count j (is ++ js) b =
      writtenBank data o count (j + is.length) js (writtenBank data o count j is b) := by
  induction is generalizing j b with
  | nil => rfl
  | cons i is ih => simp [writtenBank, ih, Nat.add_assoc, Nat.add_comm 1]

theorem writtenTrace_append (data : List Byte) (o count j : Nat) (is js : List Nat) (b : List Word) :
    writtenTrace data o count j (is ++ js) b =
      writtenTrace data o count j is b ++
        writtenTrace data o count (j + is.length) js (writtenBank data o count j is b) := by
  induction is generalizing j b with
  | nil => rfl
  | cons i is ih => simp [writtenBank, writtenTrace, ih, Nat.add_assoc, Nat.add_comm 1]

section Procedure

variable {data : List Byte} {o count : Nat} {is : List Nat} {b : List Word}

theorem length_bankAfter (n : Nat) : (bankAfter data o count is b n).length = b.length := writtenBank_length ..

/-- After all registers of the span the bank is the one the write leaves. -/
theorem bankAfter_all : bankAfter data o count is b is.length = writtenBank data o count 0 is b := by
  rw [bankAfter, List.take_length]

theorem valueAt_eq {j i : Nat} (h : is[j]? = some i) :
    valueAt data o count is b j = newValue data o count j ((bankAfter data o count is b j).getD i 0) := by
  rw [valueAt, List.getD_eq_getElem?_getD (l := is), h, Option.getD_some]

/-- Handling one more register sets it to its value. -/
theorem bankAfter_succ {j i : Nat} (h : is[j]? = some i) :
    bankAfter data o count is b (j + 1) = (bankAfter data o count is b j).set i (valueAt data o count is b j) := by
  rw [valueAt_eq h]
  obtain ⟨hj, rfl⟩ := List.getElem?_eq_some_iff.1 h
  rw [bankAfter, bankAfter, ← List.take_concat_get' _ _ hj, writtenBank_append,
    List.length_take_of_le hj.le, Nat.zero_add, writtenBank, writtenBank]

/-- Covered positions of the value are the data, the others what the register holds when its turn comes. -/
theorem valueAt_getLsbD {j i p : Nat} (h : is[j]? = some i) (hp : p < 16) :
    (valueAt data o count is b j).getLsbD p =
      if Covers o count j p then bufferBit data (16 * j + p - o)
      else ((bankAfter data o count is b j).getD i 0).getLsbD p := by
  rw [valueAt_eq h, newValue_getLsbD _ _ _ _ _ _ hp]

/-- The banks between the registers, the first before any and the last after all. -/
def banksBetween (data : List Byte) (o count : Nat) (is : List Nat) (b : List Word) : List (List Word) :=
  (List.range (is.length + 1)).map (bankAfter data o count is b)

/-- The values the registers are set to. -/
def valuesSet (data : List Byte) (o count : Nat) (is : List Nat) (b : List Word) : List Word :=
  (List.range is.length).map (valueAt data o count is b)

theorem banksBetween_getElem? {n : Nat} (h : n ≤ is.length) :
    (banksBetween data o count is b)[n]? = some (bankAfter data o count is b n) := by
  simp [banksBetween, Nat.lt_succ_of_le h]

theorem valuesSet_getElem? {j : Nat} (h : j < is.length) :
    (valuesSet data o count is b)[j]? = some (valueAt data o count is b j) := by
  simp [valuesSet, h]

/-- Each register of the span is set once, in its turn, and its value keeps what the bank then holds at uncovered
positions (R135). -/
theorem register_step (hlt : ∀ i ∈ is, i < b.length) {j i : Nat} {v : Word} {before after : List Word}
    (hi : is[j]? = some i) (hv : (valuesSet data o count is b)[j]? = some v)
    (hbefore : (banksBetween data o count is b)[j]? = some before)
    (hafter : (banksBetween data o count is b)[j + 1]? = some after) :
    after = before.set i v ∧
      ∃ old, before[i]? = some old ∧
        ∀ p < 16, v.getLsbD p = if Covers o count j p then bufferBit data (16 * j + p - o) else old.getLsbD p := by
  have hj : j < is.length := (List.getElem?_eq_some_iff.1 hi).1
  have hib : i < (bankAfter data o count is b j).length := by
    rw [length_bankAfter]
    exact hlt i (List.mem_of_getElem? hi)
  obtain rfl := Option.some.inj ((valuesSet_getElem? hj).symm.trans hv)
  obtain rfl := Option.some.inj ((banksBetween_getElem? hj.le).symm.trans hbefore)
  obtain rfl := Option.some.inj ((banksBetween_getElem? hj).symm.trans hafter)
  refine ⟨bankAfter_succ hi, _, List.getElem?_eq_getElem hib, fun p hp => ?_⟩
  rw [valueAt_getLsbD hi hp, List.getD_eq_getElem _ _ hib]

/-- The trace after `n` registers is their accesses, one register after another. -/
theorem writtenTrace_take {n : Nat} (hn : n ≤ is.length) :
    writtenTrace data o count 0 (is.take n) b =
      ((List.range n).map fun j =>
        registerAccesses o count j (is.getD j 0) ((valuesSet data o count is b).getD j 0)).flatten := by
  induction n with
  | zero => rfl
  | succ n ih =>
    have hlt : n < is.length := hn
    rw [List.range_succ, List.map_append, List.flatten_append, ← ih hlt.le, ← List.take_concat_get' _ _ hlt,
      writtenTrace_append, List.length_take_of_le hlt.le, Nat.zero_add]
    simp [writtenTrace, registerAccesses, valuesSet_getElem? hlt, valueAt, bankAfter, hlt]

/-- The trace is the accesses of the span's registers in order (R140). -/
theorem writtenTrace_eq :
    writtenTrace data o count 0 is b =
      ((List.range is.length).map fun j =>
        registerAccesses o count j (is.getD j 0) ((valuesSet data o count is b).getD j 0)).flatten := by
  rw [← writtenTrace_take (Nat.le_refl _), List.take_length]

end Procedure

/-- Each register of a span is set exactly once (R135). -/
theorem writtenTrace_sets (data : List Byte) (o count j : Nat) (is : List Nat) (b : List Word) :
    ((writtenTrace data o count j is b).filter Access.isSet).length = is.length := by
  induction is generalizing j b with
  | nil => rfl
  | cons i is ih =>
    rw [writtenTrace, List.filter_append, List.length_append, ih]
    split <;> simp [List.filter_cons, Access.isSet, Nat.add_comm]

/-- The registers got are the partially covered ones (R135). -/
theorem writtenTrace_gets (data : List Byte) (o count j : Nat) (is : List Nat) (b : List Word) :
    ((writtenTrace data o count j is b).filter fun a => !a.isSet).length =
      ((List.range' j is.length).filter fun n => coverMask o count n ≠ 0xFFFF).length := by
  induction is generalizing j b with
  | nil => rfl
  | cons i is ih =>
    rw [writtenTrace, List.filter_append, List.length_append, ih, List.length_cons, List.range'_succ,
      List.filter_cons (xs := List.range' ..), apply_ite List.length]
    by_cases h : coverMask o count j = 0xFFFF
    · simp only [h, if_true, ne_eq, not_true_eq_false, decide_false, Bool.false_eq_true, if_false]
      exact Nat.zero_add _
    · simp only [h, if_false, ne_eq, not_false_eq_true, decide_true, if_true]
      exact Nat.add_comm 1 _

/-- At most two registers of a span are partially covered: its first and its last (R135). -/
theorem partial_registers_le_two (o : Nat) {count : Nat} (hc : 1 ≤ count) :
    ((List.range' 0 (totalRegisters o count)).filter fun n => coverMask o count n ≠ 0xFFFF).length ≤ 2 := by
  have hnodup : ((List.range' 0 (totalRegisters o count)).filter fun n => coverMask o count n ≠ 0xFFFF).Nodup :=
    (List.nodup_range' _).filter _
  have hsub : ((List.range' 0 (totalRegisters o count)).filter fun n => coverMask o count n ≠ 0xFFFF) ⊆
      [0, totalRegisters o count - 1] := by
    intro n hn
    simp only [List.mem_filter, List.mem_range'_1, decide_eq_true_eq] at hn
    obtain ⟨⟨-, hlt⟩, hpart⟩ := hn
    obtain ⟨rfl, -⟩ | ⟨rfl, -⟩ := first_or_last_of_partial hc (by simpa using hlt) hpart <;> simp
  exact (hnodup.subperm hsub).length_le

/-- Settles O35: the banks and values are those between and at the registers of the span, each step of which is
`register_step`; the trace is their accesses in order. -/
theorem writeBitsFollowsTheProcedure : Obligations.WriteBitsFollowsTheProcedure := by
  rintro s start count _ t data ho hw hc hd hr rfl ht
  have hlen := span_length s.cfg.ct start count hc hr
  obtain rfl : t = (span s.cfg.ct start count).length := ht.trans hlen.symm
  refine ⟨banksBetween data (bitOffset start) count (span s.cfg.ct start count) s.bank, span s.cfg.ct start count,
    valuesSet data (bitOffset start) count (span s.cfg.ct start count) s.bank, _, _, exec_writeBits_eq ho hw hc hd hr,
    rfl, by simp [valuesSet], by simp [banksBetween], banksBetween_getElem? (Nat.zero_le _), ?_,
    fun j hj => span_getElem? _ _ _ _ (hj.trans_eq hlen),
    fun j i v before after => register_step fun i hi => State.span_lt ho hi, writtenTrace_eq, writtenTrace_sets .., ?_⟩
  · rw [banksBetween_getElem? (Nat.le_refl _), bankAfter_all]
  · rw [writtenTrace_gets, hlen]
    exact partial_registers_le_two _ hc

/-! ## Stored bits a write does not cover (R139) -/

theorem bankBit_eq (b : List Word) (i p : Nat) :
    bankBit b i p = if i < b.length then some ((b.getD i 0).getLsbD p) else none := by
  unfold bankBit
  split
  · next h => rw [List.getElem?_eq_getElem h, List.getD_eq_getElem _ _ h, Option.map_some]
  · next h => rw [List.getElem?_eq_none (Nat.le_of_not_lt h), Option.map_none]

/-- A coil is the stored bit behind it (R44). -/
theorem coil_eq_bankBit {ct : List Nat} {a i : Nat} (h : ct[a / 16]? = some i) (b : List Word) :
    coil ct b a = bankBit b i (a % 16) := by
  rw [coil, coilRegister, h, bankBit]

/-- A stored bit that no register of the span covers is as before, whether its register exists or not. -/
theorem bankBit_writtenBank_of_uncovered {data : List Byte} {o count : Nat} {is : List Nat} {b : List Word} {i p : Nat}
    (hp : p < 16) (h : Uncovered o count 0 is i p) :
    bankBit (writtenBank data o count 0 is b) i p = bankBit b i p := by
  rw [bankBit_eq, bankBit_eq, writtenBank_length, writtenBank_uncovered _ _ _ _ _ _ _ _ hp h]

/-- The registers of a span are the entries `fr` to `fr + T - 1`, numbered from 0. -/
theorem span_getElem?_eq_some_iff {ct : List Nat} {start count j i : Nat} :
    (span ct start count)[j]? = some i ↔ j < totalRegisters (bitOffset start) count ∧ ct[start / 16 + j]? = some i := by
  by_cases hj : j < totalRegisters (bitOffset start) count
  · rw [span_getElem? _ _ _ _ hj]
    exact ⟨fun h => ⟨hj, h⟩, And.right⟩
  · have hnone : (span ct start count)[j]? = none :=
      List.getElem?_eq_none ((List.length_take_le _ _).trans (Nat.le_of_not_lt hj))
    simp [hnone, hj]

/-- Distinct entries of a request give a span without repeats. -/
theorem DistinctSpan.nodup_span {ct : List Nat} {start count : Nat} (h : DistinctSpan ct start count) (hc : 1 ≤ count) :
    (span ct start count).Nodup := by
  rw [List.nodup_iff_getElem?_ne_getElem?]
  intro n m hnm hm heq
  have hmi := List.getElem?_eq_getElem hm
  obtain ⟨hmT, hmct⟩ := span_getElem?_eq_some_iff.1 hmi
  obtain ⟨hnT, hnct⟩ := span_getElem?_eq_some_iff.1 (heq.trans hmi)
  have := h _ _ _ ((inSpan_iff hc).2 ⟨by omega, by omega⟩) ((inSpan_iff hc).2 ⟨by omega, by omega⟩) hnct hmct
  omega

theorem not_covers_of_outside {o count j p : Nat} (h : p < coverLo o j ∨ coverHi o count j ≤ p) :
    ¬ Covers o count j p := fun ⟨hlo, hhi⟩ => h.elim (Nat.not_lt.2 hlo) (Nat.not_le.2 hhi)

/-- In a span without repeats only one register can cover a position of a bank element. -/
theorem uncovered_of_nodup {o count n i p : Nat} {is : List Nat} (hd : is.Nodup) (hn : is[n]? = some i)
    (h : ¬ Covers o count n p) : Uncovered o count 0 is i p := by
  intro m hm
  obtain rfl : m = n := (List.getElem?_inj (List.getElem?_eq_some_iff.1 hm).1 hd).1 (hm.trans hn.symm)
  rwa [Nat.zero_add]

/-- Settles O38: registers outside the span are never accessed, and a stored bit keeps its value where no register of
the span covers it; distinct entries are needed only for the positions of a span register itself. -/
theorem writeBitsPreservesWhatItDoesNotCover : Obligations.WriteBitsPreservesWhatItDoesNotCover := by
  rintro s start count _ _ data ho hw hc hd hr hdist rfl rfl
  refine ⟨_, _, exec_writeBits_eq ho hw hc hd hr, fun i hi => ?_, fun j i p hj hji hp hout => ?_,
    fun a ha _ hout => ?_⟩
  · have hmem : i ∉ span s.cfg.ct start count := fun hmem => by
      obtain ⟨j, hj⟩ := List.mem_iff_getElem?.1 hmem
      obtain ⟨hlt, hct⟩ := span_getElem?_eq_some_iff.1 hj
      exact hi j hlt hct
    refine ⟨writtenBank_getElem?_of_notMem hmem, fun a ha => ?_⟩
    rintro rfl
    exact hmem (mem_writtenTrace ha)
  · exact bankBit_writtenBank_of_uncovered hp (uncovered_of_nodup (hdist.nodup_span hc)
      (span_getElem?_eq_some_iff.2 ⟨hj, hji⟩) (not_covers_of_outside hout))
  · obtain ⟨i, v, hi, -⟩ := coil_of_lt ho ha
    rw [coil_eq_bankBit hi, coil_eq_bankBit hi]
    refine bankBit_writtenBank_of_uncovered (Nat.mod_lt _ (by decide)) fun j hj => ?_
    obtain ⟨hlt, hct⟩ := span_getElem?_eq_some_iff.1 hj
    rw [Nat.zero_add]
    exact not_covers_of_outside (hout j i hlt hct hi)

/-! ## The span after a write (R130, R137) -/

/-- A bit of the values of a list of registers is a stored bit of one of them. -/
theorem wordsBit_map_getD {is : List Nat} {k i : Nat} (h : is[k / 16]? = some i) (b : List Word) :
    wordsBit (is.map (b.getD · 0)) k = (b.getD i 0).getLsbD (k % 16) := by
  rw [wordsBit, List.getD_eq_getElem?_getD (l := is.map _), List.getElem?_map, h, Option.map_some, Option.getD_some]

theorem wordsBit_of_le {vs : List Word} {k : Nat} (h : 16 * vs.length ≤ k) : wordsBit vs k = false := by
  have : vs.length ≤ k / 16 := by omega
  simp [wordsBit, this]

/-- After distinct registers are handled, bits `o` to `o + count - 1` of their values are the data and the others are
as before. -/
theorem wordsBit_writtenBank {data : List Byte} {o count : Nat} {is : List Nat} {b : List Word} (ho : o < 16)
    (hlen : o + count ≤ 16 * is.length) (hd : is.Nodup) (hlt : ∀ i ∈ is, i < b.length) (k : Nat) :
    wordsBit (is.map ((writtenBank data o count 0 is b).getD · 0)) k =
      if o ≤ k ∧ k < o + count then bufferBit data (k - o) else wordsBit (is.map (b.getD · 0)) k := by
  by_cases hk : k / 16 < is.length
  · have hi := List.getElem?_eq_getElem hk
    have hp : k % 16 < 16 := Nat.mod_lt k (by decide)
    have hcov : Covers o count (k / 16) (k % 16) ↔ o ≤ k ∧ k < o + count := by
      rw [covers_iff ho hp, Nat.div_add_mod]
    rw [wordsBit_map_getD hi, wordsBit_map_getD hi]
    split
    · next h =>
      rw [writtenBank_covered _ _ _ _ _ _ _ _ _ hp (hlt _ (List.getElem_mem hk)) hi (by rwa [Nat.zero_add, hcov]),
        Nat.zero_add, Nat.div_add_mod]
      intro m hm hmi
      have : k / 16 = m := (List.getElem?_inj hk hd).1 (hi.trans hmi.symm)
      omega
    · next h => exact writtenBank_uncovered _ _ _ _ _ _ _ _ hp (uncovered_of_nodup hd hi (mt hcov.1 h))
  · rw [if_neg (by omega), wordsBit_of_le (by rw [List.length_map]; omega),
      wordsBit_of_le (by rw [List.length_map]; omega)]

/-- A span's registers have room for all requested coils (R103). -/
theorem end_le_span_bits (o count : Nat) : o + count ≤ 16 * totalRegisters o count := by
  unfold totalRegisters
  omega

/-- The values of a request's span after a write to it with distinct entries, bit by bit. -/
theorem wordsBit_spanValues_written {s : State} {start count : Nat} {data : List Byte} (ho : s.operational = true)
    (hc : 1 ≤ count) (hr : start + count ≤ 16 * s.cfg.m) (hd : DistinctSpan s.cfg.ct start count) (k : Nat) :
    wordsBit ((s.written start count data).spanValues start count) k =
      if bitOffset start ≤ k ∧ k < bitOffset start + count then bufferBit data (k - bitOffset start)
      else wordsBit (s.spanValues start count) k := by
  have hlen : bitOffset start + count ≤ 16 * (span s.cfg.ct start count).length := by
    rw [span_length _ _ _ hc hr]
    exact end_le_span_bits _ _
  exact wordsBit_writtenBank (bitOffset_lt start) hlen (hd.nodup_span hc) (fun i hi => State.span_lt ho hi) k

/-! ## The round trip (R138) -/

/-- Bytes before the last are not masked (R109). -/
theorem maskFinal_getElem?_of_lt {count i : Nat} (h : i < packedLength count - 1) (b : List Byte) :
    (maskFinal count b)[i]? = b[i]? := by
  unfold maskFinal
  split
  · rfl
  · rw [List.getElem?_modify_ne _ _ (by omega)]

theorem maskFinal_getElem?_last {count : Nat} (h : count % 8 ≠ 0) (b : List Byte) :
    (maskFinal count b)[packedLength count - 1]? = b[packedLength count - 1]?.map (· &&& finalMask count) := by
  rw [maskFinal, if_neg h, List.getElem?_modify_eq, Option.map_eq_map]

/-- Extracting a request's bits from values that hold its data gives the data with its padding masked. -/
theorem extractBits_eq_maskFinal {o count : Nat} {data : List Byte} {vs : List Word} (ho : o < 16) (hc : 1 ≤ count)
    (hd : data.length = packedLength count) (hv : vs.length = totalRegisters o count)
    (h : ∀ k < count, wordsBit vs (o + k) = bufferBit data k) : extractBits o count vs = maskFinal count data := by
  refine eq_of_bufferBit_eq (by rw [extractBits_length o count ho hc vs hv, maskFinal_length, hd]) fun k => ?_
  have hmask := bufferBit_maskFinal_take count hc data k
  rw [List.take_of_length_le (by rw [maskFinal_length, hd])] at hmask
  rw [hmask, bufferBit_extractBits o count hc vs hv]
  by_cases hk : k < count
  · rw [h k hk]
  · rw [decide_eq_false hk, Bool.false_and, Bool.false_and]

/-- Program P4's block: both table entries name register 1, so that no span of both is distinct. -/
def repeatedEntryBlock : State := State.constructed { ct := [1, 1], aw := 16, hasWrite := true } [0x00FF, 0xBEEF]

/-- That block after 11 22 33 44 is written through both entries: the second set overwrites the first. -/
def repeatedEntryWritten : State :=
  { repeatedEntryBlock with
    bank := [0x00FF, 0x4433]
    log := [.served (.writeBits 0 32 [0x11, 0x22, 0x33, 0x44]) { status := .ok, length := 0, buffer := [] }
      [.set 1 0x2211, .set 1 0x4433]] }

theorem exec_write_repeatedEntryBlock :
    exec (.writeBits 0 32 [0x11, 0x22, 0x33, 0x44]) repeatedEntryBlock = .next repeatedEntryWritten := rfl

theorem exec_read_repeatedEntryWritten :
    exec (.readBits 0 32) repeatedEntryWritten = .next { repeatedEntryWritten with
      log := repeatedEntryWritten.log ++ [.served (.readBits 0 32)
        { status := .ok, length := 4, buffer := [0x33, 0x44, 0x33, 0x44] } [.get 1, .get 1]] } := rfl

/-- Settles O39: after the write the span holds the data, so the read extracts it and masks its padding; on a table with
a repeated entry the second half of the data overwrites the first. -/
theorem writeThenReadReturnsTheData : Obligations.WriteThenReadReturnsTheData := by
  refine ⟨fun s start count data ho hw hc hd hr hdist => ?_,
    _, _, _, _, by decide, rfl, exec_write_repeatedEntryBlock, exec_read_repeatedEntryWritten, rfl⟩
  have hbits : ∀ k < count, wordsBit ((s.written start count data).spanValues start count) (bitOffset start + k) =
      bufferBit data k := fun k hk => by
    rw [wordsBit_spanValues_written ho hc hr hdist, if_pos (by omega), Nat.add_sub_cancel_left]
  have hbuf := extractBits_eq_maskFinal (bitOffset_lt start) hc hd
    (State.spanValues_length (s := s.written start count data) hc hr) hbits
  have hread := exec_readBits_eq (s := s.written start count data) hc hr (by rwa [State.written_operational])
  rw [hbuf, ← show data.length = packedLength count from hd] at hread
  refine ⟨_, _, _, _, exec_writeBits_eq ho hw hc hd hr, hread, rfl, maskFinal_length _ _,
    fun i hi => maskFinal_getElem?_of_lt (by rwa [hd] at hi) data, fun hz => if_pos hz, fun hz => ?_⟩
  rw [hd]
  exact maskFinal_getElem?_last hz data

/-! ## The write as shift arithmetic (R137) -/

/-- A register of a span, cut out of the span as one number. -/
theorem toNat_of_littleEndianWords {vs : List Word} {j : Nat} {v : Word} (h : vs[j]? = some v) :
    v.toNat = (littleEndianWords vs >>> (16 * j)) % 65536 := by
  refine Nat.eq_of_testBit_eq fun p => ?_
  rw [show 65536 = 2 ^ 16 by rfl, Nat.testBit_mod_two_pow, Nat.testBit_shiftRight, littleEndianWords_testBit, wordsBit]
  by_cases hp : p < 16
  · rw [show (16 * j + p) / 16 = j by omega, show (16 * j + p) % 16 = p by omega, List.getD_eq_getElem?_getD, h,
      decide_eq_true hp, Bool.true_and, Option.getD_some, BitVec.testBit_toNat]
  · rw [decide_eq_false hp, Bool.false_and, BitVec.testBit_toNat, BitVec.getLsbD_of_ge _ _ (Nat.le_of_not_lt hp)]

/-- `X` of `16 * t` bits with `D` of `count` bits put in place from bit `o` on, the complement taken at `16 * t` bits:
the merge of R137. -/
def spanMerge (t o count x d : Nat) : Nat :=
  (x &&& ((2 ^ (16 * t) - 1) ^^^ (((1 <<< count) - 1) <<< o))) ||| (d <<< o)

/-- The merge takes bits `o` to `o + count - 1` from the data and keeps the others. -/
theorem spanMerge_testBit {t o count : Nat} {vs : List Word} (data : List Byte) (hv : vs.length = t)
    (hlen : o + count ≤ 16 * t) (k : Nat) :
    (spanMerge t o count (littleEndianWords vs) (littleEndianBytes data % 2 ^ count)).testBit k =
      if o ≤ k ∧ k < o + count then bufferBit data (k - o) else wordsBit vs k := by
  simp only [spanMerge, Nat.testBit_or, Nat.testBit_and, Nat.testBit_xor, Nat.testBit_shiftLeft, Nat.one_shiftLeft,
    Nat.testBit_two_pow_sub_one, Nat.testBit_mod_two_pow, littleEndianBytes_testBit, littleEndianWords_testBit, ge_iff_le]
  split
  · next h =>
    have hin : k - o < count := by omega
    have hspan : k < 16 * t := by omega
    simp [h.1, hin, hspan]
  · next h =>
    have hout : ¬ (o ≤ k ∧ k - o < count) := by omega
    have hdata : (decide (o ≤ k) && decide (k - o < count)) = false := by simpa using hout
    by_cases hspan : k < 16 * t
    · simp [hdata, ← Bool.and_assoc, hspan]
    · simp [hdata, ← Bool.and_assoc, hspan, wordsBit_of_le (vs := vs) (k := k) (by omega)]

/-- A list that agrees with the table's entries from `fr` on, as many as the span has, is the span. -/
theorem eq_span_of_getElem? {ct is : List Nat} {start count : Nat} (hc : 1 ≤ count) (hr : start + count ≤ 16 * ct.length)
    (hlen : is.length = totalRegisters (bitOffset start) count)
    (h : ∀ j < totalRegisters (bitOffset start) count, is[j]? = ct[start / 16 + j]?) : is = span ct start count := by
  have hspan := span_length ct start count hc hr
  refine List.ext_getElem? fun j => ?_
  by_cases hj : j < totalRegisters (bitOffset start) count
  · rw [h j hj, span_getElem? _ _ _ _ hj]
  · rw [List.getElem?_eq_none (by omega), List.getElem?_eq_none (by omega)]

/-- A list of what the span's registers hold is the span's values. -/
theorem eq_spanValues_of_getElem? {s : State} {start count : Nat} {olds : List Word} (hc : 1 ≤ count)
    (hr : start + count ≤ 16 * s.cfg.m) (ho : s.operational = true)
    (hlen : olds.length = totalRegisters (bitOffset start) count)
    (h : ∀ j < totalRegisters (bitOffset start) count,
      ∃ i, (span s.cfg.ct start count)[j]? = some i ∧ olds[j]? = s.bank[i]?) : olds = s.spanValues start count := by
  have hvals := State.spanValues_length hc hr
  refine List.ext_getElem? fun j => ?_
  by_cases hj : j < totalRegisters (bitOffset start) count
  · obtain ⟨i, hi, hold⟩ := h j hj
    obtain ⟨i', hi', hval⟩ := State.spanValues_getElem? hc hr ho hj
    rw [span_getElem? _ _ _ _ hj, hi'] at hi
    obtain rfl : i' = i := Option.some.inj hi
    rw [hold, hval]
  · rw [List.getElem?_eq_none (by omega), List.getElem?_eq_none (by omega)]

/-- Settles O40: after the write, as in the merge, bits `o` to `o + count - 1` of the span are the data and the others
those it had. -/
theorem writeBitsAsShiftArithmetic : Obligations.WriteBitsAsShiftArithmetic := by
  rintro s start count _ _ _ _ _ data is olds ho hw hc hd hr hdist rfl rfl hislen holdslen hmem rfl rfl rfl
  obtain rfl := eq_span_of_getElem? hc hr hislen fun j hj => (hmem j hj).1
  obtain rfl := eq_spanValues_of_getElem? hc hr ho holdslen fun j hj => (hmem j hj).2
  have hnews : littleEndianWords ((s.written start count data).spanValues start count) =
      spanMerge (totalRegisters (bitOffset start) count) (bitOffset start) count
        (littleEndianWords (s.spanValues start count)) (littleEndianBytes data % 2 ^ count) :=
    Nat.eq_of_testBit_eq fun k => by
      rw [littleEndianWords_testBit, wordsBit_spanValues_written ho hc hr hdist,
        spanMerge_testBit data (State.spanValues_length hc hr) (end_le_span_bits _ _)]
  refine ⟨_, (s.written start count data).spanValues start count, _, exec_writeBits_eq ho hw hc hd hr,
    State.spanValues_length (s := s.written start count data) hc hr, fun j hj => ?_, hnews, fun j v hv => ?_⟩
  · obtain ⟨i, hi, hval⟩ := State.spanValues_getElem? (s := s.written start count data) hc hr
      (by rwa [State.written_operational]) hj
    exact ⟨i, (span_getElem? _ _ _ _ hj).trans hi, hval.symm⟩
  · rw [toNat_of_littleEndianWords hv, hnews]
    rfl

end Sys2Proof.Machine

/-! Proofs of the statements of 60_exceptions.md: the order of the checks, and what an error leaves behind, which is the
record of its response and nothing else. -/

namespace Sys2Proof.Machine

open Sys2Proof

/-! ## The checks in their order (R162, R163, R165) -/

theorem readStatus_eq_invalidArgument_iff {m start count : Nat} :
    readStatus m start count = .invalidArgument ↔ count = 0 := by
  unfold readStatus
  split
  · next hz => simp [hz]
  · next hz => split <;> simp [hz]

theorem readStatus_eq_outOfRange_iff {m start count : Nat} :
    readStatus m start count = .outOfRange ↔ 1 ≤ count ∧ 16 * m < start + count := by
  unfold readStatus exceedsTable
  split
  · next hz => simp [hz]
  · next hz => simp [Nat.one_le_iff_ne_zero, hz]

theorem writeStatus_eq_invalidArgument_iff {m start count : Nat} {data : List Byte} :
    writeStatus m start count data = .invalidArgument ↔ count = 0 ∨ data.length ≠ packedLength count := by
  unfold writeStatus
  split
  · next hz => simp [hz]
  · next hz =>
    split
    · next hd => simp [hd]
    · next hd => split <;> simp [hz, not_not.1 hd]

theorem writeStatus_eq_outOfRange_iff {m start count : Nat} {data : List Byte} :
    writeStatus m start count data = .outOfRange ↔
      1 ≤ count ∧ data.length = packedLength count ∧ 16 * m < start + count := by
  unfold writeStatus exceedsTable
  split
  · next hz => simp [hz]
  · next hz =>
    split
    · next hd => simp [hd]
    · next hd => simp [Nat.one_le_iff_ne_zero, hz, not_not.1 hd]

/-- A read whose checks give an error raises that error. -/
theorem exec_readBits_raise {s : State} {start count : Nat} {e : Status} (ho : s.operational = true)
    (hst : readStatus s.cfg.m start count = e) (he : e ≠ .ok) :
    exec (.readBits start count) s = .next (s.raise (.readBits start count) e) := by
  subst hst
  exact execReadBits_raise ho he

/-- A write whose checks give an error raises that error. -/
theorem exec_writeBits_raise {s : State} {start count : Nat} {data : List Byte} {e : Status}
    (ho : s.operational = true) (hw : s.cfg.hasWrite = true) (hst : writeStatus s.cfg.m start count data = e)
    (he : e ≠ .ok) : exec (.writeBits start count data) s = .next (s.raise (.writeBits start count data) e) := by
  subst hst
  exact execWriteBits_raise ho hw he

/-- Settles O28: the first check that fails gives the status that is raised, and raising only records the response. -/
theorem checksRaiseInOrder : Obligations.ChecksRaiseInOrder := by
  refine fun s start count data ho => ⟨fun hz => ?_, fun hc hr => ?_, fun hw => ⟨fun hbad => ?_, fun hc hd hr => ?_⟩⟩
  · exact exec_readBits_raise ho (readStatus_eq_invalidArgument_iff.2 hz) (by decide)
  · exact exec_readBits_raise ho (readStatus_eq_outOfRange_iff.2 ⟨hc, hr⟩) (by decide)
  · exact exec_writeBits_raise ho hw (writeStatus_eq_invalidArgument_iff.2 hbad) (by decide)
  · exact exec_writeBits_raise ho hw (writeStatus_eq_outOfRange_iff.2 ⟨hc, hd, hr⟩) (by decide)

/-! ## An error touches nothing (R164, R166, R168) -/

/-- An instruction that answers has raised an error, or has recorded a response whose status is OK. -/
theorem exec_next_raise_or_ok {s t : State} {i : Instr} (h : exec i s = .next t) :
    (∃ e, t = s.raise i e) ∨ ∃ r tr, r.status = .ok ∧ t.log = s.log ++ [.served i r tr] := by
  cases i with
  | readBits start count =>
    obtain ⟨-, ⟨-, rfl⟩ | ⟨-, -, rfl⟩⟩ := execReadBits_next h
    · exact .inl ⟨_, rfl⟩
    · exact .inr ⟨_, _, rfl, rfl⟩
  | writeBits start count data =>
    obtain ⟨-, -, ⟨-, rfl⟩ | ⟨-, -, -, rfl⟩⟩ := execWriteBits_next h
    · exact .inl ⟨_, rfl⟩
    · exact .inr ⟨_, _, rfl, rfl⟩

/-- The record of a served command determines its response and its trace. -/
theorem served_inj_of_log_eq {s t : State} {i : Instr} {r q : Response} {tr tq : List Access}
    (h : t.log = s.log ++ [.served i r tr]) (h' : t.log = s.log ++ [.served i q tq]) : r = q ∧ tr = tq := by
  simpa using h.symm.trans h'

/-- An error on record was raised: its response is the error's, its trace is empty, and nothing but the record of it is
new. -/
theorem exec_next_error {s t : State} {i : Instr} {r : Response} {tr : List Access} (h : exec i s = .next t)
    (hlog : t.log = s.log ++ [.served i r tr]) (he : r.status ≠ .ok) :
    ∃ e, r = Response.error e ∧ tr = [] ∧ t = s.raise i e := by
  obtain ⟨e, rfl⟩ | ⟨q, tq, hok, hq⟩ := exec_next_raise_or_ok h
  · obtain ⟨hr, htr⟩ := served_inj_of_log_eq hlog (State.raise_log s i e)
    exact ⟨e, hr, htr, rfl⟩
  · obtain ⟨rfl, -⟩ := served_inj_of_log_eq hlog hq
    exact absurd hok he

/-- Settles O29: an error was raised, which answers no bytes, makes no access and only records the response. -/
theorem errorsTouchNothing : Obligations.ErrorsTouchNothing := by
  intro s t i r tr h hlog he
  obtain ⟨e, rfl, rfl, rfl⟩ := exec_next_error h hlog he
  exact ⟨rfl, rfl, rfl, rfl⟩

/-! ## An error is forgotten (R33, R167) -/

/-- An answer reads neither what is pending nor what happened: with any other of both, the instruction gives the same
response, trace and bank, and records them behind what happened there. -/
theorem exec_answer_of_next {s u : State} {j : Instr} {q : Response} {tr : List Access} (h : exec j s = .next u)
    (hlog : u.log = s.log ++ [.served j q tr]) (pending : List EnvAction) (log : List Event) :
    exec j { s with pending := pending, log := log } =
      .next { u with pending := pending, log := log ++ [.served j q tr] } := by
  cases j with
  | readBits start count =>
    obtain ⟨ho, ⟨hst, rfl⟩ | ⟨hc, hr, rfl⟩⟩ := execReadBits_next h <;>
      obtain ⟨rfl, rfl⟩ := served_inj_of_log_eq hlog rfl
    · exact execReadBits_raise (s := { s with pending := pending, log := log }) ho hst
    · exact execReadBits_eq (s := { s with pending := pending, log := log }) ho hc hr
  | writeBits start count data =>
    obtain ⟨ho, hw, ⟨hst, rfl⟩ | ⟨hc, hd, hr, rfl⟩⟩ := execWriteBits_next h <;>
      obtain ⟨rfl, rfl⟩ := served_inj_of_log_eq hlog rfl
    · exact execWriteBits_raise (s := { s with pending := pending, log := log }) ho hw hst
    · exact execWriteBits_eq (s := { s with pending := pending, log := log }) ho hw hc hd hr

/-- Settles O30: an error leaves a state that differs in what happened alone, and no answer reads that. -/
theorem errorsAreForgotten : Obligations.ErrorsAreForgotten := by
  intro s t i j r hi hlog he u hj
  obtain ⟨e, -, -, rfl⟩ := exec_next_error hi hlog he
  obtain ⟨-, -, -, -, q, tr, hu⟩ := exec_next hj
  exact ⟨_, q, tr, exec_answer_of_next hj hu s.pending (s.raise i e).log, rfl, rfl, hu, rfl⟩

end Sys2Proof.Machine

/-! Proofs of the statements of 70_reset_and_hazards.md: what every step keeps. -/

namespace Sys2Proof.Machine

open Sys2Proof

/-- Settles O8: waiting and a get keep the bank whole, a set replaces one register by another, and an instruction keeps
configuration and size by `exec_next`. -/
theorem stepKeepsConfiguration : Obligations.StepKeepsConfiguration := by
  intro s t h
  obtain ⟨-, rfl⟩ | ⟨w, data, rest, i, -, -, hexec⟩ | ⟨i, v, rest, -, -, rfl⟩ | ⟨i, v, rest, -, -, rfl⟩ := step_next h
  · exact ⟨rfl, rfl⟩
  · obtain ⟨-, hcfg, -, hlen, -⟩ := exec_next hexec
    exact ⟨hcfg, hlen⟩
  · exact ⟨rfl, List.length_set⟩
  · exact ⟨rfl, rfl⟩

end Sys2Proof.Machine

/-! Proofs of the statements that go across the instructions: what the decoder covers, what a step does and keeps, which
histories it makes, what setup accepts, and the whole end state of a write. -/

namespace Sys2Proof

/-! ## The command word (R77, R80) -/

/-- A number wider than the format is rejected by name. -/
theorem decode_of_le {aw w : Nat} (data : List Byte) (h : 2 ^ cmdWidth aw ≤ w) :
    decode aw w data = .error .widerThanCmd := by
  rw [decode, if_neg (Nat.not_lt.2 h)]

/-- A read ignores the data delivered beside its word (R71, R81). -/
theorem decode_readBits_any_data {aw w start count : Nat} {data : List Byte}
    (h : decode aw w data = .ok (.readBits start count)) (data' : List Byte) :
    decode aw w data' = .ok (.readBits start count) := by
  obtain ⟨hlt, ⟨hop, hi⟩ | ⟨-, hi⟩⟩ := decode_ok h
  · rw [decode_of_lt data' hlt, if_pos hop, ← hi]
  · cases hi

/-- Settles O2: a number of the format's width has a decoding, which is well formed; each operation with operands that
fit is the decoding of its own encoding, where a read does not look at the data. -/
theorem everyCommandWordIsOneInstruction : Obligations.EveryCommandWordIsOneInstruction := by
  refine fun aw data => ⟨fun w hw => ?_, fun w hw => decode_of_le data hw, fun start count hs hc => ⟨?_, ?_⟩⟩
  · have hdec := decode_of_lt data hw
    exact ⟨_, hdec, wellFormed_of_decode hdec⟩
  · have hwf : (Instr.readBits start count).wellFormed aw = true := by simp [Instr.wellFormed, hs, hc]
    exact ⟨_, decode_readBits_any_data (decode_encode hwf) data⟩
  · have hwf : (Instr.writeBits start count data).wellFormed aw = true := by simp [Instr.wellFormed, hs, hc]
    exact ⟨_, decode_encode hwf⟩

/-- Settles O3, by evaluating the decoder on each of the eight words. -/
theorem specCommandWordsDecode : Obligations.SpecCommandWordsDecode := by
  unfold Obligations.SpecCommandWordsDecode
  decide

/-- The table's reading of a word is the decoder's, at the table's operand width. -/
theorem decode_of_decodeTableWord {nbits w : Nat} {i : Instr} (h : decodeTableWord nbits w = some i) :
    decode tableAw w (tableData w) = .ok i := by
  unfold decodeTableWord at h
  split at h
  · next j hj => rwa [Option.some.inj h] at hj
  · cases h

end Sys2Proof

namespace Sys2Proof.Machine

open Sys2Proof

/-! ## One step (R73, R75, R191) -/

/-- A step with a command pending runs the instruction its word decodes to (R75). -/
theorem step_command {s : State} {w : Nat} {data : List Byte} {rest : List EnvAction} {i : Instr}
    (hp : s.pending = .command w data :: rest) (hi : decode s.cfg.aw w data = .ok i) :
    step s = exec i { s with pending := rest } := by
  simp only [step, State.fetch_cons hp, hi]

/-- A step with a number pending that is no command word refuses it. -/
theorem step_command_refused {s : State} {w : Nat} {data : List Byte} {rest : List EnvAction}
    (hp : s.pending = .command w data :: rest) (hw : 2 ^ cmdWidth s.cfg.aw ≤ w) :
    step s = .refused (.notACommandWord w) := by
  simp only [step, State.fetch_cons hp, decode_of_le data hw]

/-- A step with nothing pending waits (R191). -/
theorem step_wait {s : State} (hp : s.pending = []) : step s = .next s := by
  simp only [step, State.fetch_nil hp]

/-- Settles O4: a step fetches, decodes and runs; the word `withFetchWord` presents is decoded as the table reads it. -/
theorem stepRunsTheDecodedCommand : Obligations.StepRunsTheDecodedCommand :=
  ⟨fun _ _ _ _ _ => step_command, fun _ _ _ _ => step_command_refused,
    fun s nbits w _ hi => step_command (State.withFetchWord_pending s nbits w) (decode_of_decodeTableWord hi)⟩

/-- Settles O5: a block just set up is the constructed one, which has nothing pending. -/
theorem blockWaitsWithNothingPending : Obligations.BlockWaitsWithNothingPending := by
  refine ⟨fun s => step_wait, fun cfg bank s h => ?_⟩
  obtain ⟨rfl, -⟩ := setUp_ok h
  exact ⟨rfl, rfl, rfl, rfl, step_wait rfl⟩

theorem step_regSet_fault {s : State} {i : Nat} {v : Word} {rest : List EnvAction}
    (hp : s.pending = .regSet i v :: rest) (hi : s.bank.length ≤ i) : step s = .fault (.noSuchRegister i) := by
  simp only [step, State.fetch_cons hp, State.regSet, Port.set, State.port_bank, Nat.not_lt.2 hi, if_false]

theorem step_regGet_fault {s : State} {i : Nat} {rest : List EnvAction} (hp : s.pending = .regGet i :: rest)
    (hi : s.bank.length ≤ i) : step s = .fault (.noSuchRegister i) := by
  simp only [step, State.fetch_cons hp, State.regGet, Port.get, State.port_bank, List.getElem?_eq_none hi]

/-- Settles O6: a set of an existing register replaces that element of the bank and no other, a get only records the
value, and beyond the bank both fault. -/
theorem registerPathIsPlainStorage : Obligations.RegisterPathIsPlainStorage := by
  refine fun s rest i => ⟨fun v hp => ⟨fun hi => ?_, step_regSet_fault hp⟩,
    fun hp => ⟨fun v => step_regGet hp, step_regGet_fault hp⟩⟩
  exact ⟨_, step_regSet hp hi, List.length_set, List.getElem?_set_self hi,
    fun j hj => List.getElem?_set_ne (Ne.symm hj)⟩

/-! ## What an instruction answers (R33, R75, R143, R160, R193) -/

/-- A block whose configuration setup rejects refuses every command. -/
theorem exec_of_not_operational {s : State} (ho : ¬ s.operational = true) (i : Instr) :
    exec i s = .refused .configurationRejected := by
  cases i with
  | readBits start count => exact if_neg ho
  | writeBits start count data => exact if_neg ho

/-- An operational block answers every read. -/
theorem exec_readBits_answers {s : State} (ho : s.operational = true) (start count : Nat) :
    ∃ t, exec (.readBits start count) s = .next t := by
  obtain ⟨r, tr, -, hread⟩ := execReadBits_answer ho start count
  exact ⟨_, hread s rfl rfl⟩

/-- An operational block with the write path answers every write. -/
theorem exec_writeBits_answers {s : State} (ho : s.operational = true) (hw : s.cfg.hasWrite = true)
    (start count : Nat) (data : List Byte) : ∃ t, exec (.writeBits start count data) s = .next t := by
  by_cases hst : writeStatus s.cfg.m start count data = .ok
  · obtain ⟨hc, hd, hr⟩ := writeStatus_eq_ok_iff.1 hst
    exact ⟨_, exec_writeBits_eq ho hw hc hd hr⟩
  · exact ⟨_, execWriteBits_raise ho hw hst⟩

/-- An operational block answers every command its configuration admits. -/
theorem exec_answers {s : State} {i : Instr} (ho : s.operational = true)
    (hi : s.cfg.hasWrite = true ∨ ∃ start count, i = .readBits start count) : ∃ t, exec i s = .next t := by
  cases i with
  | readBits start count => exact exec_readBits_answers ho start count
  | writeBits start count data =>
    obtain hw | ⟨_, _, h⟩ := hi
    · exact exec_writeBits_answers ho hw start count data
    · cases h

/-- An instruction answers, or it is refused by a name that the configuration and the bank decide (R33, R143, R193). -/
theorem exec_answers_or_refused (s : State) (i : Instr) :
    (∃ t, exec i s = .next t) ∨
      ∃ f, ∀ s' : State, s'.cfg = s.cfg → s'.bank = s.bank → exec i s' = .refused f := by
  have hop {s' : State} (hcfg : s'.cfg = s.cfg) (hbank : s'.bank = s.bank) : s'.operational = s.operational :=
    State.operational_congr hcfg (by rw [hbank])
  by_cases ho : s.operational = true
  · cases i with
    | readBits start count => exact .inl (exec_readBits_answers ho start count)
    | writeBits start count data =>
      by_cases hw : s.cfg.hasWrite = true
      · exact .inl (exec_writeBits_answers ho hw start count data)
      · refine .inr ⟨_, fun s' hcfg hbank =>
          writeBitsRefusedWithoutWritePath s' start count data ((hop hcfg hbank).trans ho) ?_⟩
        rw [hcfg]
        exact eq_false_of_ne_true hw
  · exact .inr ⟨_, fun s' hcfg hbank => exec_of_not_operational (by rwa [hop hcfg hbank]) i⟩

/-- Settles O31: a refusal is decided by configuration and bank alone, and an answer is the same whatever else the state
holds. -/
theorem answersDependOnCommandConfigurationAndBank : Obligations.AnswersDependOnCommandConfigurationAndBank := by
  rintro s ⟨cfg, bank, pending, log⟩ i rfl rfl
  obtain ⟨u, hu⟩ | ⟨f, hf⟩ := exec_answers_or_refused s i
  · refine ⟨fun t h => ?_, fun f h => ?_, fun f h => ?_⟩
    · obtain ⟨-, -, -, -, r, tr, hlog⟩ := exec_next h
      exact ⟨_, r, tr, exec_answer_of_next h hlog pending log, rfl, hlog, rfl⟩
    · cases hu.symm.trans h
    · cases hu.symm.trans h
  · have hs := hf s rfl rfl
    refine ⟨fun t h => ?_, fun g h => ?_, fun g h => ?_⟩
    · cases hs.symm.trans h
    · cases hs.symm.trans h
    · rw [← hs.symm.trans h]
      exact hf _ rfl rfl

/-- Settles O19: every register an answer touches is behind an entry of the table. -/
theorem unnamedRegistersAreNeverTouched : Obligations.UnnamedRegistersAreNeverTouched := by
  intro s t i k hk h
  obtain ⟨r, tr, hlog, hacc, hbank⟩ := exec_next_inSpan h
  refine ⟨hbank k fun e _ he => hk (List.mem_of_getElem? he), r, tr, hlog, ?_⟩
  rintro a ha rfl
  obtain ⟨e, -, he⟩ := hacc a ha
  exact hk (List.mem_of_getElem? he)

/-! ## Setup (R192, R193) -/

/-- Setup accepts exactly what makes an operational block. -/
theorem setUp_accepts_iff {cfg : Config} {bank : List Word} :
    (∃ s, setUp cfg bank = .ok s) ↔ (State.constructed cfg bank).operational = true := by
  refine ⟨fun ⟨s, h⟩ => ?_, fun h => ⟨_, if_pos h⟩⟩
  obtain ⟨rfl, ho⟩ := setUp_ok h
  exact ho

/-- The entries of a table, by membership and by position. -/
theorem entries_lt_iff {ct : List Nat} {n : Nat} :
    (∀ i ∈ ct, i < n) ↔ ∀ r < ct.length, ∃ i, ct[r]? = some i ∧ i < n := by
  rw [List.forall_mem_iff_getElem]
  exact forall₂_congr fun r hr => by simp [hr]

/-- With an empty table no request passes the checks. -/
theorem readStatus_zero_ne_ok (start count : Nat) : readStatus 0 start count ≠ .ok := by
  intro h
  obtain ⟨hc, hr⟩ := readStatus_eq_ok_iff.1 h
  omega

theorem writeStatus_zero_ne_ok (start count : Nat) (data : List Byte) : writeStatus 0 start count data ≠ .ok := by
  intro h
  obtain ⟨hc, -, hr⟩ := writeStatus_eq_ok_iff.1 h
  omega

/-- Settles O12: setup's check is the block's being operational, without which every command is refused; with an empty
table every command fails a check and is raised. -/
theorem setupAcceptsExactlyValidConfigurations : Obligations.SetupAcceptsExactlyValidConfigurations := by
  refine ⟨fun cfg bank haw => ?_, fun cfg bank hno => ?_, fun s i ho hct hi => ?_⟩
  · rw [setUp_accepts_iff, State.operational_iff]
    simp only [State.constructed_cfg, State.constructed_bank, haw, and_true, Config.m, entries_lt_iff]
  · rw [setUp_accepts_iff] at hno
    refine ⟨if_neg hno, fun i s hcfg hbank => exec_of_not_operational (fun ho => hno ?_) i⟩
    rw [← ho]
    exact State.operational_congr hcfg.symm (by rw [hbank, State.constructed_bank])
  · have hm : s.cfg.m = 0 := by rw [Config.m, hct, List.length_nil]
    cases i with
    | readBits start count =>
      have hst : readStatus s.cfg.m start count ≠ .ok := hm ▸ readStatus_zero_ne_ok start count
      exact ⟨_, exec_readBits_raise ho rfl hst, hst⟩
    | writeBits start count data =>
      have hst : writeStatus s.cfg.m start count data ≠ .ok := hm ▸ writeStatus_zero_ne_ok start count data
      obtain hw | ⟨_, _, h⟩ := hi
      · exact ⟨_, exec_writeBits_raise ho hw rfl hst, hst⟩
      · cases h

/-! ## Events and histories (R21, R57, R72, R164) -/

/-- Accesses to registers of a span of an operational block are on existing registers that the table names. -/
theorem traceWf_of_mem_span {s : State} (ho : s.operational = true) {start count : Nat} {tr : List Access}
    (h : ∀ a ∈ tr, a.register ∈ span s.cfg.ct start count) : traceWf s.cfg.ct s.bank.length tr = true := by
  refine List.all_eq_true.2 fun a ha => ?_
  simpa using ⟨mem_of_mem_span (h a ha), State.span_lt ho (h a ha)⟩

/-- An error with the empty trace is well formed, whichever command it answers. -/
theorem Event.wf_error (ct : List Nat) (n : Nat) (i : Instr) {e : Status} (he : e ≠ .ok) :
    Event.wf ct n (.served i (Response.error e) []) = true := by
  cases i <;> simp [Event.wf, Response.wf, Response.error, traceWf, he]

theorem Event.wf_readBits {ct : List Nat} {n start count : Nat} {is : List Nat} {buffer : List Byte}
    (hb : buffer.length = packedLength count) (ht : traceWf ct n (is.map Access.get) = true) :
    Event.wf ct n
      (.served (.readBits start count) (Response.success buffer (packedLength count)) (is.map Access.get)) = true := by
  simp [Event.wf, Response.wf, Response.success, hb, ht, Access.isSet]

theorem Event.wf_writeBits {ct : List Nat} {n start count : Nat} {data : List Byte} {tr : List Access}
    (ht : traceWf ct n tr = true) :
    Event.wf ct n (.served (.writeBits start count data) (Response.success [] 0) tr) = true := by
  simp [Event.wf, Response.wf, Response.success, ht]

/-- An error with the empty trace explains the bank it leaves as it was. -/
theorem Event.explained_error (ct : List Nat) (b : List Word) (i : Instr) {e : Status} (he : e ≠ .ok) :
    Event.Explained ct b (.served i (Response.error e) []) b := by
  cases i with
  | readBits start count => exact ⟨rfl, fun hok => absurd hok he⟩
  | writeBits start count data => exact ⟨rfl, fun _ => rfl⟩

/-- The bits a read returns are the requested coils of the bank it reads (R111). -/
theorem bufferBit_extractBits_eq_coil {s : State} {start count k : Nat} (hc : 1 ≤ count)
    (hr : start + count ≤ 16 * s.cfg.m) (ho : s.operational = true) (hk : k < count) :
    some (bufferBit (extractBits (bitOffset start) count (s.spanValues start count)) k) =
      coil s.cfg.ct s.bank (start + k) := by
  rw [bufferBit_extractBits_spanValues hc hr, decide_eq_true hk, Bool.true_and, coil_eq_wordsBit_spanValues hc hr ho hk]

/-- The event an instruction records is well formed and explains the bank it leaves. -/
theorem exec_next_event {s t : State} {i : Instr} (h : exec i s = .next t) :
    ∃ (r : Response) (tr : List Access), t.log = s.log ++ [.served i r tr] ∧
      Event.wf s.cfg.ct s.bank.length (.served i r tr) = true ∧
      Event.Explained s.cfg.ct s.bank (.served i r tr) t.bank := by
  cases i with
  | readBits start count =>
    obtain ⟨ho, ⟨hst, rfl⟩ | ⟨hc, hr, rfl⟩⟩ := execReadBits_next h
    · exact ⟨_, _, rfl, Event.wf_error _ _ _ hst, Event.explained_error _ _ _ hst⟩
    · have htr : traceWf s.cfg.ct s.bank.length ((span s.cfg.ct start count).map Access.get) = true :=
        traceWf_of_mem_span ho fun a ha => by
          obtain ⟨i, hi, rfl⟩ := List.mem_map.1 ha
          exact hi
      exact ⟨_, _, rfl, Event.wf_readBits (extractBits_spanValues_length hc hr) htr, rfl,
        fun _ k hk => bufferBit_extractBits_eq_coil hc hr ho hk⟩
  | writeBits start count data =>
    obtain ⟨ho, -, ⟨hst, rfl⟩ | ⟨-, -, -, rfl⟩⟩ := execWriteBits_next h
    · exact ⟨_, _, rfl, Event.wf_error _ _ _ hst, Event.explained_error _ _ _ hst⟩
    · exact ⟨_, _, rfl, Event.wf_writeBits (traceWf_of_mem_span ho fun a => mem_writtenTrace),
        (writtenTrace_apply ..).symm, fun hne => absurd rfl hne⟩

/-- A step that answers waits, or records one event, well formed, that explains the bank it leaves; the configuration
and the number of registers stay. -/
theorem step_next_event {s t : State} (h : step s = .next t) :
    t = s ∨ ∃ e : Event, t.cfg = s.cfg ∧ t.bank.length = s.bank.length ∧ t.log = s.log ++ [e] ∧
      e.wf s.cfg.ct s.bank.length = true ∧ e.Explained s.cfg.ct s.bank t.bank := by
  obtain ⟨hcfg, hlen⟩ := stepKeepsConfiguration s t h
  obtain ⟨-, rfl⟩ | ⟨w, data, rest, i, -, -, hexec⟩ | ⟨i, v, rest, -, hi, rfl⟩ | ⟨i, v, rest, -, hv, rfl⟩ :=
    step_next h
  · exact .inl rfl
  · obtain ⟨r, tr, hlog, hwf, hexp⟩ := exec_next_event hexec
    exact .inr ⟨_, hcfg, hlen, hlog, hwf, hexp⟩
  · exact .inr ⟨_, hcfg, hlen, rfl, decide_eq_true hi, hi, rfl⟩
  · exact .inr ⟨_, hcfg, hlen, rfl, decide_eq_true (List.getElem?_eq_some_iff.1 hv).1, hv, rfl⟩

/-- Settles O9: the one event a step records is well formed, and what the older ones are measured against is kept. -/
theorem stepKeepsTheHistoryWellFormed : Obligations.StepKeepsTheHistoryWellFormed := by
  intro s t hinv h
  obtain rfl | ⟨e, hcfg, hlen, hlog, hwf, -⟩ := step_next_event h
  · exact hinv
  · obtain ⟨ho, hall⟩ := hinv
    refine ⟨(State.operational_congr hcfg hlen).trans ho, ?_⟩
    rw [hlog, hcfg, hlen, List.forall_mem_append]
    exact ⟨hall, List.forall_mem_singleton.2 hwf⟩

/-- Settles O10: an operational block without a history has a well-formed one. -/
theorem setUpHistoryWellFormed : Obligations.SetUpHistoryWellFormed := by
  refine ⟨fun cfg bank s h => ?_, by decide, List.forall_mem_nil _⟩
  obtain ⟨rfl, ho⟩ := setUp_ok h
  exact ⟨ho, List.forall_mem_nil _⟩

/-- A serial history goes on with one more event from the bank it leads to. -/
theorem SerialHistory.snoc {ct : List Nat} {b b' b'' : List Word} {es : List Event} {e : Event}
    (h : SerialHistory ct b es b') (he : e.Explained ct b' b'') : SerialHistory ct b (es ++ [e]) b'' := by
  induction es generalizing b with
  | nil =>
    obtain rfl : b' = b := h
    exact ⟨b'', he, rfl⟩
  | cons e' es ih =>
    obtain ⟨b1, he', hes⟩ := h
    exact ⟨b1, he', ih hes⟩

/-- Settles O11: the one event a step records is explained by the bank before and after it; a block just set up has no
event to explain. -/
theorem everyHistoryIsSerial : Obligations.EveryHistoryIsSerial := by
  refine ⟨fun b0 s t _ hserial h => ?_, fun cfg bank s h => ?_⟩
  · obtain rfl | ⟨e, hcfg, -, hlog, -, hexp⟩ := step_next_event h
    · exact hserial
    · rw [hcfg, hlog]
      exact hserial.snoc hexp
  · obtain ⟨rfl, -⟩ := setUp_ok h
    rfl

/-! ## Every command is answered (R75, R160) -/

/-- A well-formed event carries a response record. -/
theorem Response.wf_of_event_wf {ct : List Nat} {n : Nat} {i : Instr} {r : Response} {tr : List Access}
    (h : Event.wf ct n (.served i r tr) = true) : r.wf = true := by
  cases i with
  | readBits start count =>
    simp only [Event.wf, Bool.and_eq_true] at h
    obtain ⟨⟨⟨⟨hr, -⟩, -⟩, -⟩, -⟩ := h
    exact hr
  | writeBits start count data =>
    simp only [Event.wf, Bool.and_eq_true] at h
    obtain ⟨⟨⟨hr, -⟩, -⟩, -⟩ := h
    exact hr

/-- A response record's buffer has exactly its length (R72). -/
theorem Response.buffer_length_of_wf {r : Response} (h : r.wf = true) : r.buffer.length = r.length := by
  simp only [Response.wf, Bool.and_eq_true, beq_iff_eq] at h
  exact h.1.symm

/-- Settles O32: what is admitted is answered, and the recorded response is well formed. -/
theorem operationalBlockAnswersEveryCommand : Obligations.OperationalBlockAnswersEveryCommand := by
  intro s i ho hi
  obtain ⟨t, h⟩ := exec_answers ho hi
  obtain ⟨-, hcfg, hpend, -, -⟩ := exec_next h
  obtain ⟨r, tr, hlog, hwf, -⟩ := exec_next_event h
  exact ⟨t, r, tr, h, hlog, hcfg, hpend, Response.buffer_length_of_wf (Response.wf_of_event_wf hwf)⟩

/-- Settles O7: the word decodes, and with the write path every instruction is answered. -/
theorem everyCommandIsAnsweredOnce : Obligations.EveryCommandIsAnsweredOnce := by
  intro s w data rest ho hw hp hlt
  have hdec := decode_of_lt data hlt
  obtain ⟨t, r, tr, hexec, hlog, hcfg, hpend, -⟩ :=
    operationalBlockAnswersEveryCommand { s with pending := rest } _ ho (.inl hw)
  exact ⟨t, _, r, tr, (step_command hp hdec).trans hexec, hdec, hlog, hpend, hcfg⟩

/-- Settles O14, over the three statuses. -/
theorem statusCodesAreTheSpecs : Obligations.StatusCodesAreTheSpecs := by
  refine ⟨rfl, rfl, rfl, fun e => ?_⟩
  cases e <;> decide

/-! ## The read path's buffers (R114, R116) -/

/-- Settles O26: shifting by zero moves no bit, and a byte-aligned start has offset 0 or 8. -/
theorem shiftByZeroAltersNothing : Obligations.ShiftByZeroAltersNothing := by
  refine ⟨fun w => eq_of_bufferBit_eq (shiftBytes_length 0 w) fun k => ?_, fun start h => ?_⟩
  · rw [bufferBit_shiftBytes 0 (Nat.zero_le 7), Nat.zero_add]
  · unfold byteShift bitOffset
    omega

/-- Settles O27: each bound is arithmetic of the request's quantities, with an offset below 16. -/
theorem bufferIndicesStayInRange : Obligations.BufferIndicesStayInRange := by
  rintro start count _ _ _ _ w hc rfl rfl rfl rfl hw
  have ho := bitOffset_lt start
  rw [shiftBytes_length, List.length_drop, hw]
  unfold byteOffset packedLength totalRegisters
  refine ⟨rfl, ?_, ?_, ?_, ?_, ?_, ?_, fun h => ⟨?_, ?_⟩⟩ <;> omega

/-! ## The whole end state of a write (R130, R141) -/

/-- Settles O36: the last coil that names a stored bit is the last register of the span that covers it; a stored bit no
coil names is covered by none. -/
theorem writeBitsLastNamingCoilWins : Obligations.WriteBitsLastNamingCoilWins := by
  intro s start count data ho hw hc hd hr
  refine ⟨_, _, exec_writeBits_eq ho hw hc hd hr, writtenBank_length .., fun k hk i p hnames hlast => ?_,
    fun i p hp hun => ?_⟩
  · obtain ⟨j, hj, hcov, hpos⟩ := covers_of_names hk hnames
    have hp : p < 16 := hnames.2 ▸ Nat.mod_lt _ (by decide)
    have hi : i < s.bank.length := State.span_lt ho (List.mem_of_getElem? hj)
    have hlast' : ∀ j', j < j' → (span s.cfg.ct start count)[j']? = some i →
        ¬ Covers (bitOffset start) count (0 + j') p := fun j' hlt hj' hcov' => by
      obtain ⟨k', hk', hnames', hpos'⟩ := names_of_covers hj' (Nat.zero_add j' ▸ hcov')
      exact hlast k' (by omega) hk' hnames'
    rw [bankBit_eq, if_pos (by rwa [writtenBank_length]),
      writtenBank_covered _ _ _ _ _ _ _ _ j hp hi hj (by rwa [Nat.zero_add]) hlast']
    congr 2
    omega
  · refine bankBit_writtenBank_of_uncovered hp fun j hj hcov => ?_
    obtain ⟨k, hk, hnames, -⟩ := names_of_covers hj (Nat.zero_add j ▸ hcov)
    exact hun k hk hnames

/-- With distinct span entries two requested coils never name one stored bit. -/
theorem DistinctSpan.names_inj {ct : List Nat} {start count k k' i p : Nat} (h : DistinctSpan ct start count)
    (hk : k < count) (hk' : k' < count) (hn : Names ct start k i p) (hn' : Names ct start k' i p) : k = k' := by
  obtain ⟨hct, hpos⟩ := hn
  obtain ⟨hct', hpos'⟩ := hn'
  have hentry := h _ _ i ⟨start + k, by omega, by omega, rfl⟩ ⟨start + k', by omega, by omega, rfl⟩ hct hct'
  omega

/-- Settles O37: with distinct entries every requested coil is the last that names its stored bit. -/
theorem writeBitsChangesExactlyTheAddressedBits : Obligations.WriteBitsChangesExactlyTheAddressedBits := by
  intro s start count data ho hw hc hd hr hdist
  obtain ⟨bank', tr, hexec, -, hnamed, hunnamed⟩ := writeBitsLastNamingCoilWins s start count data ho hw hc hd hr
  refine ⟨bank', tr, hexec, fun k hk => ?_, hunnamed⟩
  obtain ⟨i, v, hi, -⟩ := coil_of_lt ho (b := start + k) (by omega)
  rw [coil_eq_bankBit hi]
  exact hnamed k hk i _ ⟨hi, rfl⟩ fun k' hlt hk' hnames' =>
    Nat.ne_of_lt hlt (hdist.names_inj hk hk' ⟨hi, rfl⟩ hnames')

/-! ## Padding (R136, D10) -/

/-- The checks of a write look at its data's length only (R132). -/
theorem writeStatus_congr {data data' : List Byte} (h : data'.length = data.length) (m start count : Nat) :
    writeStatus m start count data' = writeStatus m start count data := by
  rw [writeStatus, writeStatus, h]

section Padding

variable {data data' : List Byte} {o count : Nat} (ho : o < 16) (h : ∀ k < count, bufferBit data' k = bufferBit data k)

include ho h

theorem newValue_congr (j : Nat) (old : Word) : newValue data' o count j old = newValue data o count j old := by
  rw [newValue, newValue, coverField_congr j ho h]

theorem writtenBank_congr (j : Nat) (is : List Nat) (b : List Word) :
    writtenBank data' o count j is b = writtenBank data o count j is b := by
  induction is generalizing j b with
  | nil => rfl
  | cons i is ih => rw [writtenBank, writtenBank, newValue_congr ho h, ih]

theorem writtenTrace_congr (j : Nat) (is : List Nat) (b : List Word) :
    writtenTrace data' o count j is b = writtenTrace data o count j is b := by
  induction is generalizing j b with
  | nil => rfl
  | cons i is ih => simp only [writtenTrace, newValue_congr ho h, ih]

end Padding

/-- Settles O41: two data of one length that agree below `count` pass or fail the same checks, and give every register of
the span the same value. -/
theorem writeBitsIgnoresPadding : Obligations.WriteBitsIgnoresPadding := by
  intro s start count data data' ho hw hlen hbits
  have hst' := writeStatus_congr hlen s.cfg.m start count
  by_cases hst : writeStatus s.cfg.m start count data = .ok
  · obtain ⟨hc, hd, hr⟩ := writeStatus_eq_ok_iff.1 hst
    refine ⟨_, _, _, _, exec_writeBits_eq ho hw hc hd hr, exec_writeBits_eq ho hw hc (hlen.trans hd) hr,
      writtenBank_congr (bitOffset_lt start) hbits _ _ _, rfl, ?_⟩
    rw [State.written, writtenTrace_congr (bitOffset_lt start) hbits]
  · exact ⟨_, _, _, [], exec_writeBits_raise ho hw rfl hst, exec_writeBits_raise ho hw hst' hst, rfl, rfl, rfl⟩

end Sys2Proof.Machine
